-- ==== Sys2Proof/Word.lean ====
section
/-! DEFINITION. The word types of the block: spec/00_scope.md R13 (a byte is 8 bits, bit 0 the least significant),
spec/30_encoding.md R80 (the 12-bit operation word), spec/20_memory.md R50 (8-bit read-port addresses),
spec/10_state.md R28 (the 16-bit tick counter). -/

namespace Sys2Proof

/-- A byte, R13. -/
abbrev Byte := BitVec 8

/-- The operation word of R80: `opc` in bits 11:8, `arg` in bits 7:0. -/
abbrev OpWord := BitVec 12

/-- The opcode field of R80. -/
abbrev Opcode := BitVec 4

/-- A read-port address, R50. -/
abbrev RAddr := BitVec 8

/-- The elapsed-tick counter, FR_TIMER_BITS = 16 bits wide (R8, R28). -/
abbrev Ticks := BitVec 16

end Sys2Proof
end

