-- ==== Sys2Proof/Config.lean ====
section
/-! DEFINITION. The parameters the source leaves to the implementation, each at the value this hardware takes
(spec/00_scope.md R8, spec/93_implementation_defined.md U10), and the free value behind an unspecified buffer entry
(spec/20_memory.md R53, U5). The wire constants that are no parameters (R7) are in Sys2Proof/Machine/Codec.lean. -/

namespace Sys2Proof.Config

/-- CRC8_REFIN, R8: false, each byte is consumed most significant bit first. -/
@[reducible, simp] def crc8RefIn : Bool := false

/-- CRC8_REFOUT, R8: false, the result is not bit-reversed. -/
@[reducible, simp] def crc8RefOut : Bool := false

/-- CRC8_XOROUT, R8: the value XORed onto the CRC-8 register to give the result. -/
@[reducible, simp] def crc8XorOut : Byte := 0x00

/-- MAX_PAYLOAD, R8 and R9: the largest payload in bytes on either transport. -/
@[reducible, simp] def maxPayload : Nat := 40

/-- FR_BUF_CAP, R8: unstuffed bytes, 5 + MAX_PAYLOAD. -/
@[reducible, simp] def frBufCap : Nat := 5 + maxPayload

/-- WR_BUF_CAP, R8: data bytes, MAX_PAYLOAD. -/
@[reducible, simp] def wrBufCap : Nat := maxPayload

/-- The largest bus request, `(WR_BUF_CAP div 2) * 3` raw bytes (R30, R173). -/
@[reducible, simp] def wrReqCap : Nat := wrBufCap / 2 * 3

/-- FR_TIMEOUT_TICKS, R8: the deadline of a read attempt in ticks. -/
@[reducible, simp] def frTimeoutTicks : Nat := 200

/-- TICK_PERIOD, R8, in milliseconds. The block has no clock (R12): no step reads it. With `frTimeoutTicks` it gives
the 200 ms of the source (R246; log 15). -/
@[reducible, simp] def tickPeriodMs : Nat := 1

/-- DESIGN CHOICE (log 2), safe: the free draw that a read of an unspecified buffer entry returns (R53, U5: "a free
draw, never a fixed value"). The first argument is the draw's index (`State.draws`), the second names the entry read.
It has no body a proof could see. -/
opaque freeByte : Nat → Nat → Byte

end Sys2Proof.Config
end

