-- ==== Sys2Proof/Machine/Codec.lean ====
section
/-! DEFINITION. The wire constants (spec/00_scope.md R7; unaudited, U1: log 16) and the pure functions of R15: the SHDLC
checksum, the I2C CRC-8, the stuffing table and its inverse. FR and WR compute with these on their own state
(spec/10_state.md R21). -/

namespace Sys2Proof.Machine

/-- HDR, R7: the SHDLC frame delimiter. -/
@[reducible, simp] def hdr : Byte := 0x7E

/-- ESCB, R7: the SHDLC escape marker. -/
@[reducible, simp] def escb : Byte := 0x7D

/-- CRC8_POLY, R7. -/
@[reducible, simp] def crc8Poly : Byte := 0x31

/-- CRC8_INIT, R7. -/
@[reducible, simp] def crc8Initial : Byte := 0xFF

/-- FR_MIN_LEN, R7: the fewest unstuffed bytes a closed frame may hold. -/
@[reducible, simp] def frMinLen : Nat := 3

/-- The sum modulo 256 of a byte sequence (R100, before complementing). -/
def sum8 : List Byte → Byte
  | [] => 0x00
  | b :: bs => b + sum8 bs

/-- `chk8`, R15 and R100: the complemented sum. -/
def chk8 (bs : List Byte) : Byte := ~~~ sum8 bs

/-- One iteration of R111: shift left by one, and reduce by the polynomial if bit 7 was one. -/
def crc8Shift (c : Byte) : Byte :=
  if c.getLsbD 7 then (c <<< 1) ^^^ crc8Poly else c <<< 1

/-- `n` iterations of R111. -/
def crc8Shifts : Nat → Byte → Byte
  | 0, c => c
  | n + 1, c => crc8Shifts n (crc8Shift c)

/-- The byte as it enters the register. CRC8_REFIN = false takes it as it is, most significant bit first (R57, R111);
DEDUCED (log 4): a true CRC8_REFIN would reverse it. -/
def crc8In (b : Byte) : Byte := if Config.crc8RefIn then b.reverse else b

/-- `crc8_step`, R15 and R111: one byte, eight iterations. -/
def crc8Step (c b : Byte) : Byte := crc8Shifts 8 (c ^^^ crc8In b)

/-- CRC8_OUT from the register, R112: `crc8_reg ^ CRC8_XOROUT`, no bit reversal with CRC8_REFOUT = false; DEDUCED
(log 4): a true CRC8_REFOUT would reverse the register first. -/
def crc8Out (c : Byte) : Byte := (if Config.crc8RefOut then c.reverse else c) ^^^ Config.crc8XorOut

/-- `crc8_word`, R15 and R113: the CRC byte of an I2C word. -/
def crc8Word (d0 d1 : Byte) : Byte := crc8Out (crc8Step (crc8Step crc8Initial d0) d1)

/-- `is_reserved` and `stuff_map`, R15 and R73: the second byte of the escape sequence of a reserved byte, none for a
byte that is not reserved. -/
def stuffMap (b : Byte) : Option Byte :=
  if b = 0x11 then some 0x31
  else if b = 0x13 then some 0x33
  else if b = 0x7D then some 0x5D
  else if b = 0x7E then some 0x5E
  else none

/-- `is_replacement` and `unstuff_map`, R15: the byte a replacement byte stands for after a marker, none for a byte
that is no replacement. -/
def unstuffMap (b : Byte) : Option Byte :=
  if b = 0x31 then some 0x11
  else if b = 0x33 then some 0x13
  else if b = 0x5D then some 0x7D
  else if b = 0x5E then some 0x7E
  else none

end Sys2Proof.Machine
end

