-- ==== Sys2Proof/Syntax.lean ====
section
/-! DEFINITION. The operations of the block: one constructor per row of spec/opcode_table.json
(spec/30_encoding.md R82). An operand is the argument byte exactly as it stands (R81). -/

namespace Sys2Proof

/-- One operation. A constructor without an operand ignores `arg` (R81). -/
inductive Instr where
  /-- NOP, R190. -/
  | nop
  /-- CHK.CLR, R101. -/
  | chkClr
  /-- CHK.ADD b, R102. -/
  | chkAdd (b : Byte)
  /-- CRC8.INIT, R110. -/
  | crc8Init
  /-- CRC8.UPD b, R111. -/
  | crc8Upd (b : Byte)
  /-- ESC.PUT b, R120. -/
  | escPut (b : Byte)
  /-- DESC.CLR, R124. -/
  | descClr
  /-- DESC.PUT b, R125. -/
  | descPut (b : Byte)
  /-- FR.START, R140. -/
  | frStart
  /-- FR.BYTE b, R142. -/
  | frByte (b : Byte)
  /-- FR.TICK, R162. -/
  | frTick
  /-- WR.START n, R170. -/
  | wrStart (n : Byte)
  /-- WR.BYTE b, R174. -/
  | wrByte (b : Byte)
  /-- WR.END, R180. -/
  | wrEnd
  /-- Opcode 0xE, reserved, R88. -/
  | reservedE
  /-- Opcode 0xF, reserved, R88. -/
  | reservedF
  deriving DecidableEq, Repr

end Sys2Proof
end

