-- ==== Sys2Proof/Machine/State.lean ====
section
/-! DEFINITION. The state of the block, whole: spec/10_state.md R20 to R36, the reset values R45, the codes R32 to R34,
and the reasons a step can stop. State is partitioned by unit as R21 has it. Ranges narrower than a register are built
into the field types (spec/93_implementation_defined.md U6; log 7). -/

namespace Sys2Proof.Machine

/-- A byte buffer indexed from 0 (spec/20_memory.md R50): its specified entries, as (index, byte) pairs with the
indices strictly rising. An index that is not listed has no value: it is unspecified (R29, R31, U5; log 3). -/
abbrev Memory := List Host.Cell

/-- The canonical form of a buffer: indices strictly rising. Since an unlisted index has no value, no entry can equal
what an unlisted index reads as. -/
abbrev Memory.wf (m : Memory) : Prop := m.Pairwise (fun x y => x.1 < y.1)

/-- The CHK unit, R24. -/
structure ChkUnit where
  /-- `chk_acc`: the running sum modulo 256, before complementing. -/
  acc : Byte
  deriving DecidableEq, Repr

/-- The CRC8 unit, R25. -/
structure Crc8Unit where
  /-- `crc8_reg`: the CRC-8 shift register. -/
  reg : Byte
  deriving DecidableEq, Repr

/-- The ESC unit, R26. -/
structure EscUnit where
  /-- `esc_out0`: the first wire byte of the last ESC.PUT. -/
  out0 : Byte
  /-- `esc_out1`: the second wire byte of the last ESC.PUT. -/
  out1 : Byte
  /-- `esc_cnt`: how many of them are valid; value 3 never occurs. -/
  cnt : Fin 3
  deriving DecidableEq, Repr

/-- The DESC unit, R27. -/
structure DescUnit where
  /-- `desc_pend`: the next byte is to be mapped back. -/
  pend : Bool
  /-- `desc_valid`: the last DESC.PUT produced an output byte. -/
  valid : Bool
  /-- `desc_err`, sticky: an unmapped byte followed an escape marker. -/
  err : Bool
  /-- `desc_out`: the last output byte. -/
  out : Byte
  deriving DecidableEq, Repr

/-- `fr_state`, R32. Codes 6 and 7 are never produced. -/
inductive FrState where
  | idle | awaitHeader | reading | complete | timedOut | protocolError
  deriving DecidableEq, Repr

/-- `fr_cause`, R33. Code 7 is never produced. -/
inductive FrCause where
  | none | badHeader | badStuffing | tooShort | chkMismatch | lenMismatch | overflow
  deriving DecidableEq, Repr

/-- The FR unit, R28 and R29. -/
structure FrUnit where
  /-- `fr_state`. -/
  state : FrState
  /-- `fr_cause`: why FR is in PROTOCOL_ERROR. -/
  cause : FrCause
  /-- `fr_pend`: the next byte needs unstuffing. -/
  pend : Bool
  /-- `fr_count`: unstuffed bytes accumulated, 0 to FR_BUF_CAP. -/
  count : Fin (Config.frBufCap + 1)
  /-- `fr_timer`: ticks since the accepted FR.START. -/
  timer : Ticks
  /-- `fr_buf[0..44]`. -/
  buf : Memory
  deriving DecidableEq, Repr

/-- `wr_state`, R34. Codes 6 and 7 are never produced. -/
inductive WrState where
  | idle | reading | done | errCrc | errNoData | errShort
  deriving DecidableEq, Repr

/-- `wr_phase`, R30: which byte of the group comes next, the first data byte, the second, or the CRC byte. Value 3
never occurs. -/
inductive WrPhase where
  | first | second | crc
  deriving DecidableEq, Repr

/-- The WR unit, R30 and R31. -/
structure WrUnit where
  /-- `wr_state`. -/
  state : WrState
  /-- `wr_expect`: data bytes to collect, 0 to WR_BUF_CAP. -/
  expect : Fin (Config.wrBufCap + 1)
  /-- `wr_req`: raw bytes to request from the bus, 0 to 60. -/
  req : Fin (Config.wrReqCap + 1)
  /-- `wr_raw`: raw bytes consumed since the accepted WR.START. -/
  raw : Fin (Config.wrReqCap + 1)
  /-- `wr_phase`. -/
  phase : WrPhase
  /-- `wr_d0`: the first data byte of the current group. -/
  d0 : Byte
  /-- `wr_d1`: the second data byte of the current group. -/
  d1 : Byte
  /-- `wr_count`: validated data bytes collected. -/
  count : Fin (Config.wrBufCap + 1)
  /-- `wr_buf[0..39]`. -/
  buf : Memory
  deriving DecidableEq, Repr

/-- The SYS unit, R31. -/
structure SysUnit where
  /-- `ill_op`, sticky. -/
  illOp : Bool
  deriving DecidableEq, Repr

/-- What the host puts on the input pins for one step, spec/30_encoding.md R85. -/
structure PortIn where
  /-- `rst`: synchronous reset, active high. -/
  rst : Bool
  /-- `op_valid`: whether the word on `op` is executed. -/
  opValid : Bool
  /-- `op`: the operation word. -/
  op : OpWord
  /-- `raddr`: the read-port address. -/
  raddr : RAddr
  deriving DecidableEq, Repr

/-- The state of the block (R21), and two fields of the model's own. -/
structure State where
  chk : ChkUnit
  crc8 : Crc8Unit
  esc : EscUnit
  desc : DescUnit
  fr : FrUnit
  wr : WrUnit
  sys : SysUnit
  /-- The MODEL's own: what the host will put on the pins, one entry a step, the next step's first (log 1). -/
  inputs : List PortIn
  /-- The MODEL's own: the index of the next free draw (log 2). -/
  draws : Nat
  deriving DecidableEq, Repr

/-- Why a step stops with a fault. -/
inductive Fault where
  /-- Raised by WR.BYTE alone, in a READING state in which `wr_raw` is already 60 or `wr_count` already above 38, so
  that the operation would write a value outside the register's range or an index outside `wr_buf` (R30, R177). No run
  reaches such a state (R37) and the spec defines no behaviour for it (U6). DESIGN CHOICE (log 7); safe: the model
  stops. -/
  | wrRangeExceeded
  deriving DecidableEq, Repr

/-- Why a step is refused. -/
inductive Refusal where
  /-- Raised by an arm of `exec` whose instruction has no meaning in the model; safe. No arm of this model raises it. -/
  | notModelled (mnemonic : String)
  deriving DecidableEq, Repr

/-- The machine right after reset: every element at its value of R45 (R232), the buffers unspecified. The model's own
fields start empty and 0 (DESIGN CHOICE, log 1 and log 2). Runs start here: the state before the first reset is left out
(R233, U4; log 10). -/
def State.reset : State where
  chk := { acc := 0x00 }
  crc8 := { reg := 0xFF }
  esc := { out0 := 0x00, out1 := 0x00, cnt := 0 }
  desc := { pend := false, valid := false, err := false, out := 0x00 }
  fr := { state := .idle, cause := .none, pend := false, count := 0, timer := 0, buf := [] }
  wr := { state := .idle, expect := 0, req := 0, raw := 0, phase := .first, d0 := 0x00, d1 := 0x00, count := 0, buf := [] }
  sys := { illOp := false }
  inputs := []
  draws := 0

end Sys2Proof.Machine
end

