-- ==== Sys2Proof/Machine/Ops.lean ====
section
/-! DEFINITION. The shared operations over the state: reading and writing a buffer (spec/20_memory.md R50), recording
an error, which is how this block takes an exception (spec/60_exceptions.md R204, R206, R212), and the return to a
fresh attempt by a start operation (R213). -/

namespace Sys2Proof.Machine

/-- The byte at an index of a buffer; none where the entry is unspecified. -/
def Memory.read : Memory → Nat → Option Byte
  | [], _ => none
  | (k, v) :: m, a => if k = a then some v else Memory.read m a

/-- Write one byte at an index, keeping the indices strictly rising. -/
def Memory.write : Memory → Nat → Byte → Memory
  | [], a, b => [(a, b)]
  | (k, v) :: m, a, b =>
    if a < k then (a, b) :: (k, v) :: m
    else if a = k then (a, b) :: m
    else (k, v) :: Memory.write m a b

/-- A buffer all of whose entries are unspecified: what a start operation and reset leave (R29, R31). -/
def Memory.unspecified : Memory := []

/-- Entry `i` of `fr_buf` (R29): specified below `fr_count`, a free draw at or beyond it (R53, U5), and, in a
state no run reaches, where none is listed (log 6). `d` is the index of the draw. -/
def frEntry (d : Nat) (f : FrUnit) (i : Nat) : Byte :=
  if i < f.count.val then (f.buf.read i).getD (Config.freeByte d (0x40 + i)) else Config.freeByte d (0x40 + i)

/-- `fr_buf[0 .. n-1]` (R154). -/
def frBytes (d : Nat) (f : FrUnit) (n : Nat) : List Byte := (List.range n).map (frEntry d f)

/-- Entry `i` of `wr_buf` (R31): specified below `wr_count`, a free draw at or beyond it (R53, U5), and, in a
state no run reaches, where none is listed (log 6). -/
def wrEntry (d : Nat) (w : WrUnit) (i : Nat) : Byte :=
  if i < w.count.val then (w.buf.read i).getD (Config.freeByte d (0x80 + i)) else Config.freeByte d (0x80 + i)

/-- `raise PROTOCOL_ERROR(cause)`, R204: the state and the cause, nothing else. -/
def raiseProtocolError (c : FrCause) (f : FrUnit) : FrUnit := { f with state := .protocolError, cause := c }

/-- `raise TIMED_OUT`, R204: the state, nothing else. -/
def raiseTimedOut (f : FrUnit) : FrUnit := { f with state := .timedOut }

/-- A raise in WR, R204: the error state, nothing else. -/
def raiseWr (e : WrState) (w : WrUnit) : WrUnit := { w with state := e }

/-- `raise IllegalOperation`, R206: the sticky flag, nothing else. -/
def raiseIllegalOperation (y : SysUnit) : SysUnit := { y with illOp := true }

/-- A read attempt of FR is running: AWAIT_HEADER or READING (R18). -/
def FrState.active : FrState → Bool
  | .awaitHeader | .reading => true
  | .idle | .complete | .timedOut | .protocolError => false

/-- The return of FR from a finished attempt, R213: the record an accepted FR.START writes (R140). Every buffer entry
becomes unspecified (R29). -/
def frFresh : FrUnit :=
  { state := .awaitHeader, cause := .none, pend := false, count := 0, timer := 0, buf := Memory.unspecified }

/-- The return of WR from a finished read, R213: the record an accepted WR.START writes (R170), in state `e`. Every
buffer entry becomes unspecified (R31). -/
def wrFresh (e : WrState) (expect : Fin (Config.wrBufCap + 1)) (req : Fin (Config.wrReqCap + 1)) : WrUnit :=
  { state := e, expect := expect, req := req, raw := 0, phase := .first, d0 := 0x00, d1 := 0x00, count := 0,
    buf := Memory.unspecified }

/-- The return of DESC, R213: the clear state of R124. -/
def descFresh : DescUnit := { pend := false, valid := false, err := false, out := 0x00 }

end Sys2Proof.Machine
end

