-- ==== Sys2Proof/Machine/Checks.lean ====
section
/-! DEFINITION. The two generators: CHK, the SHDLC checksum (spec/40_chk_shdlc.md R101, R102), and CRC8, the I2C CRC-8
(spec/41_crc8_i2c.md R110, R111). -/

namespace Sys2Proof.Machine

/-- CHK.CLR, R101. -/
def execChkClr (s : State) : Host.Outcome State Fault Refusal := .next { s with chk := { acc := 0x00 } }

/-- CHK.ADD b, R102: addition modulo 256, the carry recorded nowhere. -/
def execChkAdd (b : Byte) (s : State) : Host.Outcome State Fault Refusal :=
  .next { s with chk := { acc := s.chk.acc + b } }

/-- CRC8.INIT, R110. -/
def execCrc8Init (s : State) : Host.Outcome State Fault Refusal := .next { s with crc8 := { reg := crc8Initial } }

/-- CRC8.UPD b, R111. -/
def execCrc8Upd (b : Byte) (s : State) : Host.Outcome State Fault Refusal :=
  .next { s with crc8 := { reg := crc8Step s.crc8.reg b } }

end Sys2Proof.Machine
end

