-- ==== Sys2Proof/Machine/FrameSync.lean ====
section
/-! DEFINITION. FR, the SHDLC frame synchroniser: FR.START (spec/43_frame_sync.md R140, R141), FR.BYTE (R142 to R161)
and FR.TICK (R162). `d` is the index of the free draw that an unspecified buffer entry would read as. -/

namespace Sys2Proof.Machine

/-- FR.START, R140: ignored while an attempt runs (R141). -/
def frStart (f : FrUnit) : FrUnit := if f.state.active then f else frFresh

/-- `store(v)`, R150: append at index `fr_count`, or raise OVERFLOW when the buffer is full (R151). -/
def frStore (v : Byte) (f : FrUnit) : FrUnit :=
  if h : f.count.val < Config.frBufCap then
    { f with buf := f.buf.write f.count.val v, count := ⟨f.count.val + 1, Nat.succ_lt_succ h⟩ }
  else raiseProtocolError .overflow f

/-- The end-of-frame checks in their fixed order, R154 to R158. -/
def frFinalise (d : Nat) (f : FrUnit) : FrUnit :=
  if f.count.val < frMinLen then raiseProtocolError .tooShort f
  else if f.count.val < 5 ∨ f.count.val ≠ (frEntry d f 3).toNat + 5 then raiseProtocolError .lenMismatch f
  else if chk8 (frBytes d f (f.count.val - 1)) ≠ frEntry d f (f.count.val - 1) then raiseProtocolError .chkMismatch f
  else { f with state := .complete }

/-- FR.BYTE in READING with an escape pending, R147: the pending flag is dropped, a replacement byte is mapped back and
stored, any other byte is BAD_STUFFING. -/
def frUnstuff (b : Byte) (f : FrUnit) : FrUnit :=
  match unstuffMap b with
  | some v => frStore v { f with pend := false }
  | none => raiseProtocolError .badStuffing { f with pend := false }

/-- FR.BYTE in READING, in the order of R145: the pending test (R147), the marker test (R146), the header test (R153),
else store verbatim (R148). -/
def frReadingByte (d : Nat) (b : Byte) (f : FrUnit) : FrUnit :=
  if f.pend then frUnstuff b f
  else if b = escb then { f with pend := true }
  else if b = hdr then frFinalise d f
  else frStore b f

/-- FR.BYTE, the dispatch of R142. -/
def frByte (d : Nat) (b : Byte) (f : FrUnit) : FrUnit :=
  match f.state with
  | .awaitHeader => if b = hdr then { f with state := .reading } else raiseProtocolError .badHeader f
  | .reading => frReadingByte d b f
  | .idle | .complete | .timedOut | .protocolError => f

/-- FR.TICK, R162: the comparison is of the incremented value as an integer. In a run the timer stays below its 16 bits'
end (R37; log 8). -/
def frTick (f : FrUnit) : FrUnit :=
  if f.state.active then
    if f.timer.toNat + 1 > Config.frTimeoutTicks then raiseTimedOut { f with timer := f.timer + 1 }
    else { f with timer := f.timer + 1 }
  else f

/-- FR.START, R140. -/
def execFrStart (s : State) : Host.Outcome State Fault Refusal := .next { s with fr := frStart s.fr }

/-- FR.BYTE b, R142. -/
def execFrByte (b : Byte) (s : State) : Host.Outcome State Fault Refusal :=
  .next { s with fr := frByte s.draws b s.fr }

/-- FR.TICK, R162. -/
def execFrTick (s : State) : Host.Outcome State Fault Refusal := .next { s with fr := frTick s.fr }

end Sys2Proof.Machine
end

