-- ==== Sys2Proof/Machine/Stuffing.lean ====
section
/-! DEFINITION. ESC and DESC, the byte-stuffing codec: ESC.PUT (spec/42_stuffing.md R120), DESC.CLR (R124), DESC.PUT
(R125), and the sequence functions `stuff` and `unstuff` that those operations compute (R121, R126). -/

namespace Sys2Proof.Machine

/-- The registers ESC.PUT b leaves, R120: a function of `b` alone. -/
def escPut (b : Byte) : EscUnit :=
  match stuffMap b with
  | some x => { out0 := escb, out1 := x, cnt := 2 }
  | none => { out0 := b, out1 := 0x00, cnt := 1 }

/-- The valid output bytes of the escaper, R121. -/
def escBytes (e : EscUnit) : List Byte := [e.out0, e.out1].take e.cnt.val

/-- `stuff`, R121: the valid output bytes of ESC.PUT of each byte, in order. -/
def stuff (bs : List Byte) : List Byte := bs.flatMap (fun b => escBytes (escPut b))

/-- The registers DESC.PUT b leaves, R125. -/
def descPut (b : Byte) (u : DescUnit) : DescUnit :=
  if u.err then u
  else if u.pend then
    match unstuffMap b with
    | some x => { u with out := x, valid := true, pend := false }
    | none => { u with err := true, valid := false, pend := false }
  else if b = escb then { u with pend := true, valid := false }
  else { u with out := b, valid := true }

/-- `unstuff` from a descaper state, R126: the outputs of the steps that left `desc_valid` = 1; none when a step sets
`desc_err` or the last leaves `desc_pend` = 1. -/
def unstuffFrom (u : DescUnit) : List Byte → Option (List Byte)
  | [] => if u.pend then none else some []
  | b :: bs =>
    let v := descPut b u
    if v.err then none
    else (unstuffFrom v bs).map (fun out => if v.valid then v.out :: out else out)

/-- `unstuff`, R126: from the clear state. -/
def unstuff (ws : List Byte) : Option (List Byte) := unstuffFrom descFresh ws

/-- ESC.PUT b, R120. -/
def execEscPut (b : Byte) (s : State) : Host.Outcome State Fault Refusal := .next { s with esc := escPut b }

/-- DESC.CLR, R124. -/
def execDescClr (s : State) : Host.Outcome State Fault Refusal := .next { s with desc := descFresh }

/-- DESC.PUT b, R125. -/
def execDescPut (b : Byte) (s : State) : Host.Outcome State Fault Refusal :=
  .next { s with desc := descPut b s.desc }

end Sys2Proof.Machine
end

