-- ==== Sys2Proof/Machine/System.lean ====
section
/-! DEFINITION. The SYS operations: NOP (spec/45_system.md R190) and the reserved opcodes 0xE and 0xF (R193,
spec/30_encoding.md R88). -/

namespace Sys2Proof.Machine

/-- NOP, R190: ignore. -/
def execNop (s : State) : Host.Outcome State Fault Refusal := .next s

/-- Opcode 0xE, R88 and R193: `ill_op <- 1`, nothing else; the step completes (U2; log 5). -/
def execReservedE (s : State) : Host.Outcome State Fault Refusal :=
  .next { s with sys := raiseIllegalOperation s.sys }

/-- Opcode 0xF, R88 and R193: `ill_op <- 1`, nothing else; the step completes (U2; log 5). -/
def execReservedF (s : State) : Host.Outcome State Fault Refusal :=
  .next { s with sys := raiseIllegalOperation s.sys }

end Sys2Proof.Machine
end

