-- ==== Sys2Proof/Machine/Operands.lean ====
section
/-! DEFINITION. What an argument byte stands for (spec/30_encoding.md R81): a data byte is the byte itself; the
argument of WR.START is an expected length, accepted up to WR_BUF_CAP (spec/44_word_reader.md R170, R172), from which
the request count is computed (R173). -/

namespace Sys2Proof.Machine

/-- The argument of WR.START as an expected length in data bytes; none above WR_BUF_CAP (R172). -/
def expectedLength (n : Byte) : Option (Fin (Config.wrBufCap + 1)) :=
  if h : n.toNat < Config.wrBufCap + 1 then some ⟨n.toNat, h⟩ else none

/-- `(n div 2) * 3`, R173: divide first, discarding the remainder. -/
def requestCount (n : Fin (Config.wrBufCap + 1)) : Fin (Config.wrReqCap + 1) :=
  ⟨n.val / 2 * 3, by have := n.isLt; simp only [Config.wrBufCap, Config.wrReqCap, Config.maxPayload] at *; omega⟩

end Sys2Proof.Machine
end

