-- ==== Sys2Proof/Machine/WordReader.lean ====
section
/-! DEFINITION. WR, the I2C word reader: WR.START (spec/44_word_reader.md R170 to R173), WR.BYTE (R174 to R179) and
WR.END (R180). -/

namespace Sys2Proof.Machine

/-- The state an accepted WR.START leaves, R170: nothing can be requested for n = 0 or 1. -/
def wrBegin (n : Fin (Config.wrBufCap + 1)) : WrUnit :=
  wrFresh (if n.val / 2 = 0 then .errNoData else .reading) n (requestCount n)

/-- `exhaust`, R174 and R179: no validated data byte, or too few. -/
def wrExhaust (w : WrUnit) : WrUnit := raiseWr (if w.count.val = 0 then .errNoData else .errShort) w

/-- A group that passes, R177: its two data bytes are appended and the count moves on by two; none where the count
would leave its range. -/
def wrAppend (w : WrUnit) : Option WrUnit :=
  if h : w.count.val + 2 < Config.wrBufCap + 1 then
    some { w with
      buf := (w.buf.write w.count.val w.d0).write (w.count.val + 1) w.d1,
      count := ⟨w.count.val + 2, h⟩ }
  else none

/-- DONE when the new count reaches the expected length, R178. -/
def wrComplete (w : WrUnit) : WrUnit := if w.expect.val ≤ w.count.val then { w with state := .done } else w

/-- The `case wr_phase` of R174, on a unit whose `wr_raw` is already the new one. -/
def wrPhaseByte (b : Byte) (w : WrUnit) : Option WrUnit :=
  match w.phase with
  | .first => some { w with d0 := b, phase := .second }
  | .second => some { w with d1 := b, phase := .crc }
  | .crc =>
    if b = crc8Word w.d0 w.d1 then (wrAppend { w with phase := .first }).map wrComplete
    else some (raiseWr .errCrc { w with phase := .first })

/-- The last line of R174: automatic exhaustion when the state is still READING and the last requested raw byte has
been consumed. -/
def wrAutoExhaust (w : WrUnit) : WrUnit :=
  if w.state = .reading ∧ w.raw = w.req then wrExhaust w else w

/-- WR.BYTE in READING, R174; none where `wr_raw` or `wr_count` would leave its range (log 7). -/
def wrReadingByte (b : Byte) (w : WrUnit) : Option WrUnit :=
  if h : w.raw.val + 1 < Config.wrReqCap + 1 then
    (wrPhaseByte b { w with raw := ⟨w.raw.val + 1, h⟩ }).map wrAutoExhaust
  else none

/-- WR.BYTE, R174: ignored outside READING (R181). -/
def wrByte (b : Byte) (w : WrUnit) : Option WrUnit :=
  match w.state with
  | .reading => wrReadingByte b w
  | .idle | .done | .errCrc | .errNoData | .errShort => some w

/-- WR.END, R180: ignored outside READING (R181). -/
def wrEnd (w : WrUnit) : WrUnit := if w.state = .reading then wrExhaust w else w

/-- WR.START n, R170: the state test before the parameter test (R171, R184); above WR_BUF_CAP, IllegalOperation and
nothing else (R172). -/
def execWrStart (n : Byte) (s : State) : Host.Outcome State Fault Refusal :=
  if s.wr.state = .reading then .next s
  else match expectedLength n with
    | some e => .next { s with wr := wrBegin e }
    | none => .next { s with sys := raiseIllegalOperation s.sys }

/-- WR.BYTE b, R174. -/
def execWrByte (b : Byte) (s : State) : Host.Outcome State Fault Refusal :=
  match wrByte b s.wr with
  | some w => .next { s with wr := w }
  | none => .fault .wrRangeExceeded

/-- WR.END, R180. -/
def execWrEnd (s : State) : Host.Outcome State Fault Refusal := .next { s with wr := wrEnd s.wr }

end Sys2Proof.Machine
end

