-- ==== Sys2Proof/Machine/Dispatch.lean ====
section
/-! DEFINITION. The dispatch: one arm per operation (spec/30_encoding.md R82), each one call of its meaning. -/

namespace Sys2Proof.Machine

def exec (i : Instr) (s : State) : Host.Outcome State Fault Refusal :=
  match i with
  | .nop => Sys2Proof.Machine.execNop s
  | .chkClr => Sys2Proof.Machine.execChkClr s
  | .chkAdd b => Sys2Proof.Machine.execChkAdd b s
  | .crc8Init => Sys2Proof.Machine.execCrc8Init s
  | .crc8Upd b => Sys2Proof.Machine.execCrc8Upd b s
  | .escPut b => Sys2Proof.Machine.execEscPut b s
  | .descClr => Sys2Proof.Machine.execDescClr s
  | .descPut b => Sys2Proof.Machine.execDescPut b s
  | .frStart => Sys2Proof.Machine.execFrStart s
  | .frByte b => Sys2Proof.Machine.execFrByte b s
  | .frTick => Sys2Proof.Machine.execFrTick s
  | .wrStart n => Sys2Proof.Machine.execWrStart n s
  | .wrByte b => Sys2Proof.Machine.execWrByte b s
  | .wrEnd => Sys2Proof.Machine.execWrEnd s
  | .reservedE => Sys2Proof.Machine.execReservedE s
  | .reservedF => Sys2Proof.Machine.execReservedF s

end Sys2Proof.Machine
end

