-- ==== Sys2Proof/WellFormed.lean ====
section
/-! DEFINITION. Which operations and which assembler statements are well formed: spec/30_encoding.md R88 (reserved
opcodes), R92 (a mnemonic that takes an argument must have one, the others must have none; the argument is a byte). -/

namespace Sys2Proof

/-- The mnemonics of R92: the 14 defined operations. -/
inductive Mnemonic where
  | nop | chkClr | chkAdd | crc8Init | crc8Upd | escPut | descClr | descPut
  | frStart | frByte | frTick | wrStart | wrByte | wrEnd
  deriving DecidableEq, Repr

/-- R92: CHK.ADD, CRC8.UPD, ESC.PUT, DESC.PUT, FR.BYTE, WR.START and WR.BYTE take an argument. -/
def Mnemonic.takesArg : Mnemonic → Bool
  | .chkAdd | .crc8Upd | .escPut | .descPut | .frByte | .wrStart | .wrByte => true
  | .nop | .chkClr | .crc8Init | .descClr | .frStart | .frTick | .wrEnd => false

/-- One operation as the assembler of R92 reads it: a mnemonic and the number written after it, if any. -/
structure Statement where
  mnemonic : Mnemonic
  arg : Option Nat
  deriving DecidableEq, Repr

/-- R92: an argument exactly where the mnemonic takes one, and in the range 0 to 255. -/
def Statement.wf (t : Statement) : Bool :=
  match t.arg with
  | some v => t.mnemonic.takesArg && v < 256
  | none => !t.mnemonic.takesArg

/-- An operation that some statement of R92 writes: one of the 14 defined opcodes with any argument byte. The two
reserved opcodes decode and execute (they set `ill_op`, R88), but no well-formed program holds one (U2). DESIGN CHOICE
(log 13), safe: every statement about decoding or executing is made for all constructors. -/
def Instr.wf : Instr → Bool
  | .reservedE | .reservedF => false
  | .nop | .chkClr | .chkAdd _ | .crc8Init | .crc8Upd _ | .escPut _ | .descClr | .descPut _
  | .frStart | .frByte _ | .frTick | .wrStart _ | .wrByte _ | .wrEnd => true

/-- The operation a well-formed statement stands for, R92. -/
def Statement.toInstr (t : Statement) : Option Instr :=
  match t.mnemonic, t.arg with
  | .nop, none => some .nop
  | .chkClr, none => some .chkClr
  | .chkAdd, some v => if v < 256 then some (.chkAdd (BitVec.ofNat 8 v)) else none
  | .crc8Init, none => some .crc8Init
  | .crc8Upd, some v => if v < 256 then some (.crc8Upd (BitVec.ofNat 8 v)) else none
  | .escPut, some v => if v < 256 then some (.escPut (BitVec.ofNat 8 v)) else none
  | .descClr, none => some .descClr
  | .descPut, some v => if v < 256 then some (.descPut (BitVec.ofNat 8 v)) else none
  | .frStart, none => some .frStart
  | .frByte, some v => if v < 256 then some (.frByte (BitVec.ofNat 8 v)) else none
  | .frTick, none => some .frTick
  | .wrStart, some v => if v < 256 then some (.wrStart (BitVec.ofNat 8 v)) else none
  | .wrByte, some v => if v < 256 then some (.wrByte (BitVec.ofNat 8 v)) else none
  | .wrEnd, none => some .wrEnd
  | _, _ => none

end Sys2Proof
end

