-- ==== Sys2Proof/Decode.lean ====
section
/-! DEFINITION. The operation word: its two fields (spec/30_encoding.md R80), the decoder (R82, R81, R88) and the
encoder (R83). Every 12-bit word has a meaning, so the decoder of words is total; a number that does not fit the
12 wires of `op` is rejected by name. -/

namespace Sys2Proof

/-- `opc`, bits 11:8 (R80). -/
def opcOf (w : OpWord) : Opcode := w.extractLsb' 8 4

/-- `arg`, bits 7:0 (R80), an unsigned value exactly as it stands (R81). -/
def argOf (w : OpWord) : Byte := w.extractLsb' 0 8

/-- The opcode map of R82 on the two fields. `opc` has 4 bits, so the last arm is 0xF alone. -/
def decodeFields (opc : Opcode) (arg : Byte) : Instr :=
  if opc = 0x0 then .nop
  else if opc = 0x1 then .chkClr
  else if opc = 0x2 then .chkAdd arg
  else if opc = 0x3 then .crc8Init
  else if opc = 0x4 then .crc8Upd arg
  else if opc = 0x5 then .escPut arg
  else if opc = 0x6 then .descClr
  else if opc = 0x7 then .descPut arg
  else if opc = 0x8 then .frStart
  else if opc = 0x9 then .frByte arg
  else if opc = 0xA then .frTick
  else if opc = 0xB then .wrStart arg
  else if opc = 0xC then .wrByte arg
  else if opc = 0xD then .wrEnd
  else if opc = 0xE then .reservedE
  else .reservedF

/-- The decoder of an operation word, R82. -/
def decode (w : OpWord) : Instr := decodeFields (opcOf w) (argOf w)

/-- The opcode of an operation, R82. -/
def Instr.opcode : Instr → Opcode
  | .nop => 0x0
  | .chkClr => 0x1
  | .chkAdd _ => 0x2
  | .crc8Init => 0x3
  | .crc8Upd _ => 0x4
  | .escPut _ => 0x5
  | .descClr => 0x6
  | .descPut _ => 0x7
  | .frStart => 0x8
  | .frByte _ => 0x9
  | .frTick => 0xA
  | .wrStart _ => 0xB
  | .wrByte _ => 0xC
  | .wrEnd => 0xD
  | .reservedE => 0xE
  | .reservedF => 0xF

/-- The argument byte of an operation; 0 where it has none, as assemblers emit it (R83). -/
def Instr.argByte : Instr → Byte
  | .chkAdd b | .crc8Upd b | .escPut b | .descPut b | .frByte b | .wrStart b | .wrByte b => b
  | .nop | .chkClr | .crc8Init | .descClr | .frStart | .frTick | .wrEnd | .reservedE | .reservedF => 0x00

/-- The encoder, R83: `opc * 256 + arg`, `opc` in the more significant position. -/
def encode (i : Instr) : OpWord := i.opcode ++ i.argByte

/-- Why a number is no operation word. -/
inductive DecodeReject where
  /-- It has a one above bit 11, and the port `op` has 12 wires (R80, R85). Raised by `decodeNumber` alone; safe. -/
  | widerThanOperationWord
  deriving DecidableEq, Repr

/-- The decoder on any number of any number of bits: the bits above `nbits` are 0, and only a 12-bit value is an
operation word. -/
def decodeNumber (nbits w : Nat) : Except DecodeReject Instr :=
  if w % 2 ^ nbits < 2 ^ 12 then .ok (decode (BitVec.ofNat 12 (w % 2 ^ nbits)))
  else .error .widerThanOperationWord

/-- The instruction the decoder reads from the bits of `w`, numbered as spec/opcode_table.json numbers them. The one
operation word is the whole instruction (R80); a row's 12 bits come in 16 here, and the upper four are 0 (log 12). -/
def decodeTableWord (nbits w : Nat) : Option Instr :=
  match decodeNumber nbits w with
  | .ok i => some i
  | .error _ => none

end Sys2Proof
end

