-- ==== Sys2Proof/Machine/Port.lean ====
section
/-! DEFINITION. The operation port (spec/30_encoding.md R85): what one step does with the pins, taking the host's next
pin values, and putting pin values in front of them. -/

namespace Sys2Proof.Machine

/-- What the pins ask of one step: `rst` wins over the operation (spec/70_reset_and_hazards.md R230), `op_valid` = 0
executes nothing, whatever is on `op` (R190), else the word on `op` is decoded. -/
inductive PortAction where
  | reset
  | nothing
  | execute (i : Instr)
  deriving DecidableEq, Repr

/-- The action of one step's pin values. -/
def PortIn.action (p : PortIn) : PortAction :=
  if p.rst then .reset else if p.opValid then .execute (decode p.op) else .nothing

/-- The action of the coming step. Where the host has said nothing more, it holds `rst` and `op_valid` at 0: nothing is
executed (DESIGN CHOICE, log 1). -/
def State.action (s : State) : PortAction :=
  match s.inputs with
  | [] => .nothing
  | p :: _ => p.action

/-- The state once the host's pin values of this step are used up. -/
def State.takeInput (s : State) : State := { s with inputs := s.inputs.tail }

/-- The state at the end of a step: the next step makes a free draw of its own (log 2). -/
def State.endStep (s : State) : State := { s with draws := s.draws + 1 }

/-- A step with `rst` = 1, R230: every element takes its reset value (R45). The model's own fields are not the
block's: the host's remaining pin values and the index of the draws stay (log 11). -/
def State.resetPin (s : State) : State := { State.reset with inputs := s.inputs, draws := s.draws }

/-- The pin values that present an operation word: `rst` 0, `op_valid` 1, and a read address of 0 (log 12). -/
def PortIn.ofWord (w : OpWord) : PortIn := { rst := false, opValid := true, op := w, raddr := 0x00 }

/-- The pin values of a read without an operation, R93 (RD): `op_valid` 0. What stands on `op` then is not said; the
model drives 0x000, and `rst` 0 (DESIGN CHOICE, log 12). -/
def PortIn.ofRead (a : RAddr) : PortIn := { rst := false, opValid := false, op := 0x000, raddr := a }

/-- The pin values of RST, R93: `rst` 1 for one step. What stands on the other pins then is not said; the model drives 0 on
all of them (DESIGN CHOICE, log 12). -/
def PortIn.ofReset : PortIn := { rst := true, opValid := false, op := 0x000, raddr := 0x00 }

/-- Let the host present pin values in the next step, before everything it was to present. -/
def State.present (s : State) (p : PortIn) : State := { s with inputs := p :: s.inputs }

/-- The operation word in `nbits` bits numbered as spec/opcode_table.json numbers them (log 12). -/
def tableWord (nbits w : Nat) : OpWord := BitVec.ofNat 12 (w % 2 ^ nbits)

end Sys2Proof.Machine
end

