-- ==== Sys2Proof/Machine/Step.lean ====
section
/-! DEFINITION. One step of the block (spec/00_scope.md R10, spec/30_encoding.md R85): the host's pin values for this
step are taken, and the action they ask for happens. -/

namespace Sys2Proof.Machine

/-- One step. -/
def step (s : State) : Host.Outcome State Fault Refusal :=
  match s.action with
  | .reset => .next s.takeInput.resetPin.endStep
  | .nothing => .next s.takeInput.endStep
  | .execute i =>
    match exec i s.takeInput with
    | .next t => .next t.endStep
    | .fault r => .fault r
    | .refused r => .refused r

/-- The state in which the next step finds the operation word `w` on `op` with `op_valid` = 1 (log 12). -/
def State.withFetchWord (s : State) (nbits w : Nat) : State := s.present (PortIn.ofWord (tableWord nbits w))

end Sys2Proof.Machine
end

