-- ==== Sys2Proof/Machine/Flags.lean ====
section
/-! DEFINITION. The status bytes: the codes of spec/10_state.md R32 to R34, and the packing of the flags into FR_STAT,
WR_STAT, DESC_STAT and SYS_STAT (spec/20_memory.md R53). Bits the map does not name read 0. The block has no
arithmetic condition codes (R23). -/

namespace Sys2Proof.Machine

/-- The 3-bit code of `fr_state`, R32. -/
def FrState.code : FrState → BitVec 3
  | .idle => 0
  | .awaitHeader => 1
  | .reading => 2
  | .complete => 3
  | .timedOut => 4
  | .protocolError => 5

/-- The 3-bit code of `fr_cause`, R33. -/
def FrCause.code : FrCause → BitVec 3
  | .none => 0
  | .badHeader => 1
  | .badStuffing => 2
  | .tooShort => 3
  | .chkMismatch => 4
  | .lenMismatch => 5
  | .overflow => 6

/-- The 3-bit code of `wr_state`, R34. -/
def WrState.code : WrState → BitVec 3
  | .idle => 0
  | .reading => 1
  | .done => 2
  | .errCrc => 3
  | .errNoData => 4
  | .errShort => 5

/-- The 2-bit code of `wr_phase`, R30. -/
def WrPhase.code : WrPhase → BitVec 2
  | .first => 0
  | .second => 1
  | .crc => 2

/-- FR_STAT: `fr_state` in bits 2:0, `fr_pend` in bit 3, `fr_cause` in bits 6:4, bit 7 zero. -/
def frStat (f : FrUnit) : Byte := 0#1 ++ f.cause.code ++ BitVec.ofBool f.pend ++ f.state.code

/-- WR_STAT: `wr_state` in bits 2:0, bit 3 zero, `wr_phase` in bits 5:4, bits 7:6 zero. -/
def wrStat (w : WrUnit) : Byte := 0#2 ++ w.phase.code ++ 0#1 ++ w.state.code

/-- DESC_STAT: `desc_pend` in bit 0, `desc_valid` in bit 1, `desc_err` in bit 2, bits 7:3 zero. -/
def descStat (u : DescUnit) : Byte := 0#5 ++ BitVec.ofBool u.err ++ BitVec.ofBool u.valid ++ BitVec.ofBool u.pend

/-- SYS_STAT: `ill_op` in bit 0, bits 7:1 zero. -/
def sysStat (y : SysUnit) : Byte := 0#7 ++ BitVec.ofBool y.illOp

end Sys2Proof.Machine
end

