-- ==== Sys2Proof/Machine/ReadPort.lean ====
section
/-! DEFINITION. The read port: the map of spec/20_memory.md R53 and the access `MemRead` of R52 (also RD,
spec/45_system.md R191). A read is a function of the state; it changes nothing. -/

namespace Sys2Proof.Machine

/-- The registers of R53, by the map's names; `unmapped` is every other address. -/
inductive ReadReg where
  | CHK_ACC | CHK_OUT | CRC8_REG | CRC8_OUT | ESC_OUT0 | ESC_OUT1 | ESC_CNT | DESC_STAT | DESC_OUT | SYS_STAT
  | FR_STAT | FR_COUNT | FR_TIMER_LO | FR_TIMER_HI | FR_ADDR | FR_CMD | FR_DSTATE | FR_LEN | FR_CHK
  | WR_STAT | WR_EXPECT | WR_REQ | WR_RAW | WR_COUNT | WR_D0 | WR_D1
  | FR_BUF (i : Nat) | WR_BUF (i : Nat) | unmapped
  deriving DecidableEq, Repr

/-- The rows of R53 for CHK, CRC8, ESC, DESC and SYS. -/
def readMapGenerators : List (Nat × ReadReg) :=
  [(0x00, .CHK_ACC), (0x01, .CHK_OUT), (0x02, .CRC8_REG), (0x03, .CRC8_OUT), (0x04, .ESC_OUT0), (0x05, .ESC_OUT1),
   (0x06, .ESC_CNT), (0x07, .DESC_STAT), (0x08, .DESC_OUT), (0x09, .SYS_STAT)]

/-- The rows of R53 for FR, but for the buffer. -/
def readMapFr : List (Nat × ReadReg) :=
  [(0x10, .FR_STAT), (0x11, .FR_COUNT), (0x12, .FR_TIMER_LO), (0x13, .FR_TIMER_HI), (0x14, .FR_ADDR), (0x15, .FR_CMD),
   (0x16, .FR_DSTATE), (0x17, .FR_LEN), (0x18, .FR_CHK)]

/-- The rows of R53 for WR, but for the buffer. -/
def readMapWr : List (Nat × ReadReg) :=
  [(0x20, .WR_STAT), (0x21, .WR_EXPECT), (0x22, .WR_REQ), (0x23, .WR_RAW), (0x24, .WR_COUNT), (0x25, .WR_D0),
   (0x26, .WR_D1)]

/-- The rows of R53 that stand at one address. -/
def readMap : List (Nat × ReadReg) := readMapGenerators ++ readMapFr ++ readMapWr

/-- The register at a read-port address, R53. -/
def readReg (a : RAddr) : ReadReg :=
  match readMap.lookup a.toNat with
  | some r => r
  | none =>
    if 0x40 ≤ a.toNat ∧ a.toNat < 0x40 + Config.frBufCap then .FR_BUF (a.toNat - 0x40)
    else if 0x80 ≤ a.toNat ∧ a.toNat < 0x80 + Config.wrBufCap then .WR_BUF (a.toNat - 0x80)
    else .unmapped

/-- FR_CHK, R53: `fr_buf[fr_count-1]`, the last accumulated byte; a free draw when nothing is accumulated. -/
def frChk (d : Nat) (f : FrUnit) : Byte :=
  if f.count.val = 0 then Config.freeByte d 0x18 else frEntry d f (f.count.val - 1)

/-- The content of a register, R53. -/
def regByte (s : State) : ReadReg → Byte
  | .CHK_ACC => s.chk.acc
  | .CHK_OUT => ~~~ s.chk.acc
  | .CRC8_REG => s.crc8.reg
  | .CRC8_OUT => crc8Out s.crc8.reg
  | .ESC_OUT0 => s.esc.out0
  | .ESC_OUT1 => s.esc.out1
  | .ESC_CNT => BitVec.ofNat 8 s.esc.cnt.val
  | .DESC_STAT => descStat s.desc
  | .DESC_OUT => s.desc.out
  | .SYS_STAT => sysStat s.sys
  | .FR_STAT => frStat s.fr
  | .FR_COUNT => BitVec.ofNat 8 s.fr.count.val
  | .FR_TIMER_LO => s.fr.timer.extractLsb' 0 8
  | .FR_TIMER_HI => s.fr.timer.extractLsb' 8 8
  | .FR_ADDR => frEntry s.draws s.fr 0
  | .FR_CMD => frEntry s.draws s.fr 1
  | .FR_DSTATE => frEntry s.draws s.fr 2
  | .FR_LEN => frEntry s.draws s.fr 3
  | .FR_CHK => frChk s.draws s.fr
  | .WR_STAT => wrStat s.wr
  | .WR_EXPECT => BitVec.ofNat 8 s.wr.expect.val
  | .WR_REQ => BitVec.ofNat 8 s.wr.req.val
  | .WR_RAW => BitVec.ofNat 8 s.wr.raw.val
  | .WR_COUNT => BitVec.ofNat 8 s.wr.count.val
  | .WR_D0 => s.wr.d0
  | .WR_D1 => s.wr.d1
  | .FR_BUF i => frEntry s.draws s.fr i
  | .WR_BUF i => wrEntry s.draws s.wr i
  | .unmapped => 0x00

/-- `MemRead(addr, 1)`, R52: the byte R53 assigns to the address, from the state at the start of the step. -/
def memRead (s : State) (a : RAddr) : Byte := regByte s (readReg a)

/-- The pin `rdata` in the coming step, R85 and R52: combinational from `raddr` and the state before the operation of
the same step, also while `rst` = 1 (R230). It has no value where the host has not said what stands on `raddr`
(DESIGN CHOICE, log 9). -/
def rdata (s : State) : Option Byte := s.inputs.head?.map (fun p => memRead s p.raddr)

end Sys2Proof.Machine
end

