-- ==== Sys2Proof/Machine/Asm.lean ====
section
/-! DEFINITION. The assembler notation of spec/30_encoding.md: statements (R92), pseudo-operations and their
expansions (R93), as the pin values a host puts on the port, one entry a step. Notation only (D30): no step of the block
reads any of it. Where R92 and R93 give no rule for blanks, the letter case of digits, leading zeros, the count of FR.WAIT
or the written form of an address, log 14 says what is accepted. -/

namespace Sys2Proof.Machine

/-- One operation as pin values. -/
def PortIn.ofInstr (i : Instr) : PortIn := PortIn.ofWord (encode i)

/-- The pseudo-operations of R93. -/
inductive Pseudo where
  | chkSum (bs : List Byte)
  | crc8Word (d0 d1 : Byte)
  | escStr (bs : List Byte)
  | descStr (bs : List Byte)
  | frFeed (bs : List Byte)
  | frWait (t : Nat)
  | wrFeed (bs : List Byte)
  | rd (a : RAddr)
  | rst
  deriving DecidableEq, Repr

/-- The expansions of R93. ESC.STR and DESC.STR read their outputs in steps of their own after each operation. -/
def Pseudo.expand : Pseudo → List PortIn
  | .chkSum bs => PortIn.ofInstr .chkClr :: bs.map (fun b => PortIn.ofInstr (.chkAdd b))
  | .crc8Word d0 d1 => [PortIn.ofInstr .crc8Init, PortIn.ofInstr (.crc8Upd d0), PortIn.ofInstr (.crc8Upd d1)]
  | .escStr bs => bs.flatMap (fun b =>
      [PortIn.ofInstr (.escPut b), PortIn.ofRead 0x06, PortIn.ofRead 0x04, PortIn.ofRead 0x05])
  | .descStr bs => bs.flatMap (fun b => [PortIn.ofInstr (.descPut b), PortIn.ofRead 0x07, PortIn.ofRead 0x08])
  | .frFeed bs => bs.map (fun b => PortIn.ofInstr (.frByte b))
  | .frWait t => List.replicate t (PortIn.ofInstr .frTick)
  | .wrFeed bs => bs.map (fun b => PortIn.ofInstr (.wrByte b))
  | .rd a => [PortIn.ofRead a]
  | .rst => [PortIn.ofReset]

/-- The spelling of each mnemonic, R92. -/
def mnemonicNames : List (String × Mnemonic) :=
  [("NOP", .nop), ("CHK.CLR", .chkClr), ("CHK.ADD", .chkAdd), ("CRC8.INIT", .crc8Init), ("CRC8.UPD", .crc8Upd),
   ("ESC.PUT", .escPut), ("DESC.CLR", .descClr), ("DESC.PUT", .descPut), ("FR.START", .frStart),
   ("FR.BYTE", .frByte), ("FR.TICK", .frTick), ("WR.START", .wrStart), ("WR.BYTE", .wrByte), ("WR.END", .wrEnd)]

/-- The register names of R53, for RD (R93). -/
def registerNames : List (String × RAddr) :=
  [("CHK_ACC", 0x00), ("CHK_OUT", 0x01), ("CRC8_REG", 0x02), ("CRC8_OUT", 0x03), ("ESC_OUT0", 0x04),
   ("ESC_OUT1", 0x05), ("ESC_CNT", 0x06), ("DESC_STAT", 0x07), ("DESC_OUT", 0x08), ("SYS_STAT", 0x09),
   ("FR_STAT", 0x10), ("FR_COUNT", 0x11), ("FR_TIMER_LO", 0x12), ("FR_TIMER_HI", 0x13), ("FR_ADDR", 0x14),
   ("FR_CMD", 0x15), ("FR_DSTATE", 0x16), ("FR_LEN", 0x17), ("FR_CHK", 0x18), ("WR_STAT", 0x20),
   ("WR_EXPECT", 0x21), ("WR_REQ", 0x22), ("WR_RAW", 0x23), ("WR_COUNT", 0x24), ("WR_D0", 0x25), ("WR_D1", 0x26)]

/-- A decimal digit. -/
def decDigit (c : Char) : Option Nat :=
  if 48 ≤ c.toNat ∧ c.toNat ≤ 57 then some (c.toNat - 48) else none

/-- A hexadecimal digit, in either case. -/
def hexDigit (c : Char) : Option Nat :=
  if 65 ≤ c.toNat ∧ c.toNat ≤ 70 then some (c.toNat - 55)
  else if 97 ≤ c.toNat ∧ c.toNat ≤ 102 then some (c.toNat - 87)
  else decDigit c

/-- The value of a sequence of decimal digits, continuing from `n`. -/
def decFrom (n : Nat) : List Char → Option Nat
  | [] => some n
  | c :: cs => (decDigit c).bind (fun k => decFrom (10 * n + k) cs)

/-- A decimal numeral: at least one digit. R92 says only `decimal 0..255`; leading zeros, in any number, are accepted
(DESIGN CHOICE, log 14). -/
def parseDecimal : List Char → Option Nat
  | [] => none
  | c :: cs => decFrom 0 (c :: cs)

/-- The number after a mnemonic as it is written: `0x` and two hexadecimal digits, or a decimal numeral (R92). -/
def parseNumber : List Char → Option Nat
  | ['0', 'x', h, l] => (hexDigit h).bind (fun a => (hexDigit l).map (fun b => 16 * a + b))
  | cs => parseDecimal cs

/-- `byte` of R92: a number from 0 to 255. -/
def parseByte (cs : List Char) : Option Byte :=
  (parseNumber cs).bind (fun v => if v < 256 then some (BitVec.ofNat 8 v) else none)

/-- A blank between the parts of a statement. -/
def isBlank (c : Char) : Bool := c = ' ' ∨ c = '\t' ∨ c = '\r'

/-- A text without the blanks at its two ends. -/
def trimBlanks (cs : List Char) : List Char := ((cs.dropWhile isBlank).reverse.dropWhile isBlank).reverse

/-- The operands of a statement: nothing, or items between commas. -/
def operandTexts (cs : List Char) : List (List Char) :=
  match trimBlanks cs with
  | [] => []
  | c :: rest => ((c :: rest).splitOn ',').map trimBlanks

/-- `some` of every element, or none. -/
def allSome {α : Type} : List (Option α) → Option (List α)
  | [] => some []
  | x :: xs => x.bind (fun a => (allSome xs).map (fun as => a :: as))

/-- A buffer entry's name for RD, FR_BUF[i] or WR_BUF[i] (R53). -/
def parseBufName (pre : String) (base cap : Nat) (cs : List Char) : Option RAddr :=
  if cs.take pre.toList.length = pre.toList ∧ cs.getLast? = some ']' then
    (parseDecimal (cs.drop pre.toList.length).dropLast).bind
      (fun i => if i < cap then some (BitVec.ofNat 8 (base + i)) else none)
  else none

/-- The operand of RD: a register's name or an address (R93), the address written as a byte of R92 (DESIGN CHOICE,
log 14). -/
def parseRegister (cs : List Char) : Option RAddr :=
  match registerNames.find? (fun r => r.1.toList = cs) with
  | some r => some r.2
  | none => ((parseBufName "FR_BUF[" 0x40 Config.frBufCap cs).or (parseBufName "WR_BUF[" 0x80 Config.wrBufCap cs)).or
      (parseByte cs)

/-- A pseudo-operation from its name and operands, R93. A byte sequence has at least one byte. The `t` of FR.WAIT, whose
written form R93 does not give, is a decimal numeral of any size, 0 included, and no hexadecimal (DESIGN CHOICE, log 14). -/
def parsePseudo (name : List Char) (ops : List (List Char)) : Option Pseudo :=
  let bytes := (allSome (ops.map parseByte)).bind (fun bs => if bs = [] then none else some bs)
  if name = "CHK.SUM".toList then bytes.map .chkSum
  else if name = "CRC8.WORD".toList then
    match ops with
    | [a, b] => (parseByte a).bind (fun d0 => (parseByte b).map (fun d1 => .crc8Word d0 d1))
    | _ => none
  else if name = "ESC.STR".toList then bytes.map .escStr
  else if name = "DESC.STR".toList then bytes.map .descStr
  else if name = "FR.FEED".toList then bytes.map .frFeed
  else if name = "FR.WAIT".toList then
    match ops with
    | [t] => (parseDecimal t).map .frWait
    | _ => none
  else if name = "WR.FEED".toList then bytes.map .wrFeed
  else if name = "RD".toList then
    match ops with
    | [a] => (parseRegister a).map .rd
    | _ => none
  else if name = "RST".toList then (if ops = [] then some .rst else none)
  else none

/-- An operation from its mnemonic and operands, R92: the argument exactly where the mnemonic takes one. -/
def parseOperation (m : Mnemonic) (ops : List (List Char)) : Option Instr :=
  match ops with
  | [] => Statement.toInstr { mnemonic := m, arg := none }
  | [a] => (parseNumber a).bind (fun v => Statement.toInstr { mnemonic := m, arg := some v })
  | _ => none

/-- One statement, R92: an operation or a pseudo-operation; neither is empty. -/
def assembleStatement (cs : List Char) : Option (List PortIn) :=
  let text := trimBlanks cs
  let name := text.takeWhile (fun c => !isBlank c)
  let ops := operandTexts (text.drop name.length)
  match mnemonicNames.find? (fun r => r.1.toList = name) with
  | some r => (parseOperation r.2 ops).map (fun i => [PortIn.ofInstr i])
  | none => (parsePseudo name ops).map Pseudo.expand

/-- One line, R92: nothing, or statements with a semicolon between each two; then a comment after `#`. -/
def assembleLine (cs : List Char) : Option (List PortIn) :=
  let body := trimBlanks (cs.takeWhile (fun c => c ≠ '#'))
  if body = [] then some []
  else (allSome ((body.splitOn ';').map assembleStatement)).map List.flatten

/-- A sequence, R92: lines, each statement in order, one statement one step (pseudo-operations as R93 counts them). -/
def assemble (text : String) : Option (List PortIn) :=
  (allSome ((text.toList.splitOn '\n').map assembleLine)).map List.flatten

end Sys2Proof.Machine
end

