-- ==== Sys2Proof/Machine/Wire.lean ====
section
/-! DEFINITION. The wire formats that FR and WR parse and that CHK, CRC8 and ESC help a host produce
(spec/30_encoding.md R70 to R76). No step of the block reads these: building frames is the host's business
(spec/00_scope.md R5). They are the vocabulary of claims about what FR and WR do with well-formed wire bytes. -/

namespace Sys2Proof.Machine

/-- What the checksum of a frame is taken over, and then the checksum: R70, R72. -/
def withChk (bs : List Byte) : List Byte := bs ++ [chk8 bs]

/-- An SHDLC reply after unstuffing, without its headers, R72: address, command, state, length, payload, checksum. -/
def replyBody (addr cmd st : Byte) (payload : List Byte) : List Byte :=
  withChk (addr :: cmd :: st :: BitVec.ofNat 8 payload.length :: payload)

/-- An SHDLC reply on the wire, R72: every byte between the headers is stuffed. -/
def replyWire (addr cmd st : Byte) (payload : List Byte) : List Byte :=
  hdr :: (stuff (replyBody addr cmd st payload) ++ [hdr])

/-- An SHDLC request on the wire, R70 and R71: only the payload and the checksum are stuffed, and the length byte
counts payload bytes before stuffing. -/
def requestWire (addr cmd : Byte) (payload : List Byte) : List Byte :=
  let head := [addr, cmd, BitVec.ofNat 8 payload.length]
  hdr :: (head ++ (stuff (payload ++ [chk8 (head ++ payload)]) ++ [hdr]))

/-- An I2C word and its CRC byte, R75. -/
def i2cGroup (d0 d1 : Byte) : List Byte := [d0, d1, crc8Word d0 d1]

/-- An I2C read reply, R75: a sequence of groups, nothing else. -/
def i2cReply (words : List (Byte × Byte)) : List Byte := words.flatMap (fun w => i2cGroup w.1 w.2)

/-- The data bytes of a sequence of words, in wire order (R56). -/
def wordBytes (words : List (Byte × Byte)) : List Byte := words.flatMap (fun w => [w.1, w.2])

/-- An I2C write message, R74: the 2-byte big-endian command code without a CRC byte, then the groups. -/
def i2cWrite (command : BitVec 16) (words : List (Byte × Byte)) : List Byte :=
  command.extractLsb' 8 8 :: command.extractLsb' 0 8 :: i2cReply words

/-- The four bytes of a 32-bit parameter, big-endian, R76: on SHDLC four payload bytes. -/
def be32 (v : BitVec 32) : List Byte :=
  [v.extractLsb' 24 8, v.extractLsb' 16 8, v.extractLsb' 8 8, v.extractLsb' 0 8]

/-- The two words of a 32-bit parameter on I2C, R76. -/
def be32Words (v : BitVec 32) : List (Byte × Byte) :=
  [(v.extractLsb' 24 8, v.extractLsb' 16 8), (v.extractLsb' 8 8, v.extractLsb' 0 8)]

end Sys2Proof.Machine
end

