-- ==== Sys2Proof/Safety.lean ====
section
/-! DEFINITION. What claims about the block are said in: a sequence of operations, the partition of the operations by
unit (spec/10_state.md R21), the terminal states (spec/00_scope.md R18), and the invariants of R37. -/

namespace Sys2Proof.Machine

/-- The operations of a sequence, one after the other, stopping at the first fault or refusal (R62: program order). -/
def runOps : List Instr → State → Host.Outcome State Fault Refusal
  | [], s => .next s
  | i :: is, s =>
    match exec i s with
    | .next t => runOps is t
    | .fault r => .fault r
    | .refused r => .refused r

/-- The units of R21. -/
inductive UnitName where
  | chk | crc8 | esc | desc | fr | wr | sys
  deriving DecidableEq, Repr

end Sys2Proof.Machine

namespace Sys2Proof

open Machine

/-- The unit an operation belongs to (R82, R21). -/
def Instr.unitOf : Instr → UnitName
  | .nop | .reservedE | .reservedF => .sys
  | .chkClr | .chkAdd _ => .chk
  | .crc8Init | .crc8Upd _ => .crc8
  | .escPut _ => .esc
  | .descClr | .descPut _ => .desc
  | .frStart | .frByte _ | .frTick => .fr
  | .wrStart _ | .wrByte _ | .wrEnd => .wr

/-- The operation raises IllegalOperation (R206): a reserved opcode, or WR.START with an argument above WR_BUF_CAP when
WR is not READING. -/
def Instr.illegal (i : Instr) (w : WrUnit) : Bool :=
  match i with
  | .reservedE | .reservedF => true
  | .wrStart n => decide (w.state ≠ .reading) && decide (Config.wrBufCap < n.toNat)
  | .nop | .chkClr | .chkAdd _ | .crc8Init | .crc8Upd _ | .escPut _ | .descClr | .descPut _
  | .frStart | .frByte _ | .frTick | .wrByte _ | .wrEnd => false

/-- The wire byte an operation delivers to FR (R142). -/
def Instr.frWireByte : Instr → Option Byte
  | .frByte b => some b
  | .nop | .chkClr | .chkAdd _ | .crc8Init | .crc8Upd _ | .escPut _ | .descClr | .descPut _
  | .frStart | .frTick | .wrStart _ | .wrByte _ | .wrEnd | .reservedE | .reservedF => none

/-- The operation delivers a raw bus byte to WR (R174). -/
def Instr.isWrByte : Instr → Bool
  | .wrByte _ => true
  | .nop | .chkClr | .chkAdd _ | .crc8Init | .crc8Upd _ | .escPut _ | .descClr | .descPut _
  | .frStart | .frByte _ | .frTick | .wrStart _ | .wrEnd | .reservedE | .reservedF => false

end Sys2Proof

namespace Sys2Proof.Machine

/-- The unit whose state, or whose view of state, stands at a read-port address (R53). -/
def addrUnit (a : RAddr) : UnitName :=
  if a.toNat < 0x02 then .chk
  else if a.toNat < 0x04 then .crc8
  else if a.toNat < 0x07 then .esc
  else if a.toNat < 0x09 then .desc
  else if a.toNat < 0x10 then .sys
  else if a.toNat < 0x20 then .fr
  else if a.toNat < 0x40 then .wr
  else if a.toNat < 0x80 then .fr
  else .wr

/-- A buffer whose specified entries are exactly the indices below `n` (R29, R31). -/
abbrev Memory.filledTo (m : Memory) (n : Nat) : Prop := m.map Prod.fst = List.range n

/-- The bytes of a buffer in index order. -/
def Memory.bytes (m : Memory) : List Byte := m.map Prod.snd

/-- DESC, R37 item 9. -/
abbrev DescUnit.Inv (u : DescUnit) : Prop := u.pend = true → u.err = false

/-- A frame that passed every check, R37 item 5: at least 5 bytes, as many as its length byte announces, and the last
one the checksum of the others. -/
abbrev FrUnit.goodFrame (f : FrUnit) : Prop :=
  5 ≤ f.count.val ∧ f.buf.bytes[3]?.map (fun l => l.toNat + 5) = some f.count.val ∧
    f.buf.bytes.getLast? = some (chk8 f.buf.bytes.dropLast)

/-- FR, R37 items 2 to 5 (item 1 is the type of `count`), and: the specified entries of `fr_buf` are those below
`fr_count` (R29), and nothing is accumulated before the opening header (R28, R32, R143). -/
abbrev FrUnit.Inv (f : FrUnit) : Prop :=
  (f.cause ≠ .none ↔ f.state = .protocolError) ∧
  (f.pend = true → f.state = .reading ∨ f.state = .timedOut) ∧
  f.timer.toNat ≤ Config.frTimeoutTicks + 1 ∧
  (f.timer.toNat = Config.frTimeoutTicks + 1 ↔ f.state = .timedOut) ∧
  (f.state = .complete → f.goodFrame) ∧
  (f.state = .idle ∨ f.state = .awaitHeader → f.count.val = 0) ∧
  f.buf.filledTo f.count.val

/-- The position in the group as a number, R30. -/
def WrPhase.index : WrPhase → Nat
  | .first => 0
  | .second => 1
  | .crc => 2

/-- WR, R37 items 1, 6, 7 and 8, and: a running read has bytes left to consume and to collect (R180), the two
exhaustion outcomes are told apart by the count (R34, R179), and the specified entries of `wr_buf` are those below
`wr_count` (R31). -/
abbrev WrUnit.Inv (w : WrUnit) : Prop :=
  w.count.val ≤ w.expect.val ∧ w.count.val % 2 = 0 ∧ w.raw.val ≤ w.req.val ∧
  (w.state = .reading ∨ w.state = .errNoData ∨ w.state = .errShort →
    w.raw.val = w.count.val / 2 * 3 + w.phase.index) ∧
  (w.state = .errCrc → w.phase = .first ∧ w.raw.val = w.count.val / 2 * 3 + 3) ∧
  (w.state = .idle ∨ w.state = .done → w.phase = .first) ∧
  (w.state = .done → w.count.val = w.expect.val ∧ 2 ≤ w.expect.val ∧ w.raw = w.req) ∧
  w.req.val = w.expect.val / 2 * 3 ∧
  (w.state = .reading → w.raw.val < w.req.val ∧ w.count.val < w.expect.val) ∧
  (w.state = .errNoData → w.count.val = 0) ∧
  (w.state = .errShort → 0 < w.count.val ∧ w.count.val < w.expect.val) ∧
  w.buf.filledTo w.count.val

/-- The invariants of R37 that speak of one state (item 10 speaks of two; item 9's range of `esc_cnt` and item 1's upper
bounds are the types of the fields). -/
abbrev State.Inv (s : State) : Prop := s.desc.Inv ∧ s.fr.Inv ∧ s.wr.Inv

end Sys2Proof.Machine
end

