-- ==== Sys2Proof/Certificates/Slice0/Obligations.lean ====
section
/-! DEFINITION. The statements for the provers. Each says in its docstring which rule of spec/ it formalises. A clause
`t = { s with chk := t.chk }` is a frame: nothing but that unit changed, no register, flag or buffer entry of another
unit and neither of the model's own fields. -/

open Sys2Proof Sys2Proof.Machine

/-! ## Encoding -/

/-- R83: the encoding of an operation with argument `v` is `opc * 256 + v`, of one without argument `opc * 256`, with
the opcodes of R82; and the six examples of R83. -/
def Obligations.EncodingIsOpcodeTimes256PlusArgument : Prop :=
  (∀ v : Byte,
    (encode .nop).toNat = 0x0 * 256 ∧ (encode .chkClr).toNat = 0x1 * 256 ∧
    (encode (.chkAdd v)).toNat = 0x2 * 256 + v.toNat ∧ (encode .crc8Init).toNat = 0x3 * 256 ∧
    (encode (.crc8Upd v)).toNat = 0x4 * 256 + v.toNat ∧ (encode (.escPut v)).toNat = 0x5 * 256 + v.toNat ∧
    (encode .descClr).toNat = 0x6 * 256 ∧ (encode (.descPut v)).toNat = 0x7 * 256 + v.toNat ∧
    (encode .frStart).toNat = 0x8 * 256 ∧ (encode (.frByte v)).toNat = 0x9 * 256 + v.toNat ∧
    (encode .frTick).toNat = 0xA * 256 ∧ (encode (.wrStart v)).toNat = 0xB * 256 + v.toNat ∧
    (encode (.wrByte v)).toNat = 0xC * 256 + v.toNat ∧ (encode .wrEnd).toNat = 0xD * 256 ∧
    (encode .reservedE).toNat = 0xE * 256 ∧ (encode .reservedF).toNat = 0xF * 256) ∧
  encode (.frByte 0x7E) = 0x97E ∧ encode (.chkAdd 0x03) = 0x203 ∧ encode (.wrStart 40) = 0xB28 ∧
  encode .frStart = 0x800 ∧ encode .frTick = 0xA00 ∧ encode .nop = 0x000

/-- R82: the opcode map, at every value of the argument bits. -/
def Obligations.OpcodeMapDecodesEveryWord : Prop :=
  ∀ a : Byte,
    decode (0x0#4 ++ a) = .nop ∧ decode (0x1#4 ++ a) = .chkClr ∧ decode (0x2#4 ++ a) = .chkAdd a ∧
    decode (0x3#4 ++ a) = .crc8Init ∧ decode (0x4#4 ++ a) = .crc8Upd a ∧ decode (0x5#4 ++ a) = .escPut a ∧
    decode (0x6#4 ++ a) = .descClr ∧ decode (0x7#4 ++ a) = .descPut a ∧ decode (0x8#4 ++ a) = .frStart ∧
    decode (0x9#4 ++ a) = .frByte a ∧ decode (0xA#4 ++ a) = .frTick ∧ decode (0xB#4 ++ a) = .wrStart a ∧
    decode (0xC#4 ++ a) = .wrByte a ∧ decode (0xD#4 ++ a) = .wrEnd ∧ decode (0xE#4 ++ a) = .reservedE ∧
    decode (0xF#4 ++ a) = .reservedF

/-- A few operation words written out from the encodings of R82, one of each family, decode to what they stand for. -/
def Obligations.SpecWordsDecode : Prop :=
  decode 0b000010101011 = .nop ∧ decode 0b001000000011 = .chkAdd 0x03 ∧ decode 0b010010111110 = .crc8Upd 0xBE ∧
  decode 0b010101111110 = .escPut 0x7E ∧ decode 0b011101111101 = .descPut 0x7D ∧
  decode 0b100101111110 = .frByte 0x7E ∧ decode 0b101011111111 = .frTick ∧ decode 0b101100101000 = .wrStart 40 ∧
  decode 0b110010010010 = .wrByte 0x92 ∧ decode 0b111001011010 = .reservedE

/-- R81: an argument is bits 7:0 exactly as they stand; an operation without argument decodes alike for every value of
them. -/
def Obligations.ArgumentBitsUsedAsTheyStandOrIgnored : Prop :=
  ∀ w w' : OpWord, w.toNat / 256 = w'.toNat / 256 →
    (w.toNat / 256 ∈ [0x2, 0x4, 0x5, 0x7, 0x9, 0xB, 0xC] → (decode w).argByte.toNat = w.toNat % 256) ∧
    (w.toNat / 256 ∉ [0x2, 0x4, 0x5, 0x7, 0x9, 0xB, 0xC] → decode w = decode w')

/-- Decode and encode agree: decoding an encoded operation gives it back, for every operation and every operand; and
encoding a decoded word gives the word back, with the ignored argument bits of R81 masked out (mask 0xF00). -/
def Obligations.DecodeEncodeRoundTrip : Prop :=
  (∀ i : Instr, decode (encode i) = i) ∧
  ∀ w : OpWord, encode (decode w) =
    if w.toNat / 256 ∈ [0x2, 0x4, 0x5, 0x7, 0x9, 0xB, 0xC] then w else w &&& 0xF00

/-- R92: a statement stands for an operation exactly when its mnemonic takes an argument and has one from 0 to 255, or
takes none and has none; the operation is then the one of the mnemonic's opcode in R82 and carries that argument, 0 where
there is none (R83). -/
def Obligations.StatementsStandForDefinedOperations : Prop :=
  ∀ t : Statement,
    (t.toInstr.isSome = true ↔
      (t.mnemonic ∈ [.chkAdd, .crc8Upd, .escPut, .descPut, .frByte, .wrStart, .wrByte] ∧ ∃ v < 256, t.arg = some v) ∨
      (t.mnemonic ∉ [.chkAdd, .crc8Upd, .escPut, .descPut, .frByte, .wrStart, .wrByte] ∧ t.arg = none)) ∧
    (t.wf = true ↔ t.toInstr.isSome = true) ∧
    ∀ i, t.toInstr = some i → i.wf = true ∧
      (t.mnemonic, (encode i).toNat / 256) ∈ [(.nop, 0x0), (.chkClr, 0x1), (.chkAdd, 0x2), (.crc8Init, 0x3),
        (.crc8Upd, 0x4), (.escPut, 0x5), (.descClr, 0x6), (.descPut, 0x7), (.frStart, 0x8), (.frByte, 0x9),
        (.frTick, 0xA), (.wrStart, 0xB), (.wrByte, 0xC), (.wrEnd, 0xD)] ∧
      (encode i).toNat % 256 = t.arg.getD 0 ∧ (t.arg = none → i.argByte = 0x00) ∧
      ∀ v, t.arg = some v → i.argByte.toNat = v

/-- R93: the expansions of the pseudo-operations, as the pin values of the steps they take. ESC.STR and DESC.STR are
said step by step: `rst`, `op_valid`, and the operation word or, in a read, the address. That each of their reads is a
step of its own is the model's choice (log 14), and so is `rst` = 0 in a read step (log 12). -/
def Obligations.PseudoOperationExpansions : Prop :=
  ∀ (bs : List Byte) (d0 d1 : Byte) (t : Nat) (a : RAddr),
    (Pseudo.chkSum bs).expand = (Instr.chkClr :: bs.map Instr.chkAdd).map PortIn.ofInstr ∧
    (Pseudo.crc8Word d0 d1).expand = [Instr.crc8Init, .crc8Upd d0, .crc8Upd d1].map PortIn.ofInstr ∧
    (Pseudo.escStr bs).expand.filter (·.opValid) = (bs.map Instr.escPut).map PortIn.ofInstr ∧
    (Pseudo.descStr bs).expand.filter (·.opValid) = (bs.map Instr.descPut).map PortIn.ofInstr ∧
    (Pseudo.escStr bs).expand.map (fun p => (p.rst, p.opValid, if p.opValid then p.op.toNat else p.raddr.toNat)) =
      bs.flatMap (fun b =>
        [(false, true, 0x500 + b.toNat), (false, false, 0x06), (false, false, 0x04), (false, false, 0x05)]) ∧
    (Pseudo.descStr bs).expand.map (fun p => (p.rst, p.opValid, if p.opValid then p.op.toNat else p.raddr.toNat)) =
      bs.flatMap (fun b => [(false, true, 0x700 + b.toNat), (false, false, 0x07), (false, false, 0x08)]) ∧
    (Pseudo.frFeed bs).expand = (bs.map Instr.frByte).map PortIn.ofInstr ∧
    (Pseudo.frWait t).expand = (List.replicate t Instr.frTick).map PortIn.ofInstr ∧
    (Pseudo.wrFeed bs).expand = (bs.map Instr.wrByte).map PortIn.ofInstr ∧
    ((Pseudo.rd a).expand.map (fun p => (p.rst, p.opValid, p.raddr)) = [(false, false, a)]) ∧
    (Pseudo.rst.expand.map (fun p => p.rst) = [true]) ∧
    ∀ i : Instr, (PortIn.ofInstr i).action = .execute i

/-! ## The port, the step and reset -/

/-- R85, R10: a step whose pins carry `rst` = 0, `op_valid` = 1 and an operation word does what `exec` does with the
decoded operation; it uses up the pin values, and the next step makes a free draw of its own (the model's fields, log 1
and log 2). -/
def Obligations.StepRunsDecodedOperation : Prop :=
  ∀ (s : State) (p : PortIn) (rest : List PortIn), s.inputs = p :: rest → p.rst = false → p.opValid = true →
    step s = match exec (decode p.op) { s with inputs := rest } with
      | .next t => .next { t with draws := t.draws + 1 }
      | .fault r => .fault r
      | .refused r => .refused r

/-- R190: words with opcode 0x0 are NOP, NOP changes no state, and a step with `op_valid` = 0 behaves exactly like NOP, whatever is on `op`. That
such a step uses up its pin values and advances the index of the free draws is said of the model's own fields (log 1 and
log 2). -/
def Obligations.NopAndIdleStepChangeNothing : Prop :=
  (∀ a : Byte, decode (0x0#4 ++ a) = .nop) ∧ (∀ s, exec .nop s = .next s) ∧
  ∀ (s : State) (p : PortIn) (rest : List PortIn) (a : Byte), s.inputs = p :: rest → p.rst = false → p.opValid = false →
    step s = .next { s with inputs := rest, draws := s.draws + 1 } ∧
    step s = step { s with inputs := { p with opValid := true, op := 0x0#4 ++ a } :: rest }

/-- The model's choice (log 1): when the host has put nothing more on the pins, a step executes nothing. -/
def Obligations.StepWithoutInputExecutesNothing : Prop :=
  ∀ s : State, s.inputs = [] → step s = .next { s with draws := s.draws + 1 }

/-- R45, R192: a step with `rst` = 1 leaves every element at its reset value, whatever operation is presented; every
buffer entry is unspecified. That a read of one is then a free draw is the model's choice (log 2), and so is that the
host's remaining pin values stay (log 11). -/
def Obligations.ResetStepSetsEveryElement : Prop :=
  ∀ (s : State) (p : PortIn) (rest : List PortIn), s.inputs = p :: rest → p.rst = true →
    ∃ t, step s = .next t ∧ t.inputs = rest ∧
      t.chk.acc = 0x00 ∧ t.crc8.reg = 0xFF ∧ t.esc.out0 = 0x00 ∧ t.esc.out1 = 0x00 ∧ t.esc.cnt = 0 ∧
      t.desc.pend = false ∧ t.desc.valid = false ∧ t.desc.err = false ∧ t.desc.out = 0x00 ∧
      t.fr.state = .idle ∧ t.fr.cause = .none ∧ t.fr.pend = false ∧ t.fr.count = 0 ∧ t.fr.timer = 0 ∧
      t.wr.state = .idle ∧ t.wr.expect = 0 ∧ t.wr.req = 0 ∧ t.wr.raw = 0 ∧ t.wr.phase = .first ∧
      t.wr.d0 = 0x00 ∧ t.wr.d1 = 0x00 ∧ t.wr.count = 0 ∧ t.sys.illOp = false ∧
      (∀ i < 45, memRead t (BitVec.ofNat 8 (0x40 + i)) = Config.freeByte t.draws (0x40 + i)) ∧
      (∀ i < 40, memRead t (BitVec.ofNat 8 (0x80 + i)) = Config.freeByte t.draws (0x80 + i))

/-- R232: the state after reset, as `State.reset` has it. -/
def Obligations.ResetStateIsAsTheSpecSays : Prop :=
  memRead State.reset 0x01 = 0xFF ∧ State.reset.crc8.reg = 0xFF ∧ State.reset.esc = ⟨0x00, 0x00, 0⟩ ∧
  State.reset.desc = ⟨false, false, false, 0x00⟩ ∧ memRead State.reset 0x10 = 0x00 ∧ State.reset.fr.count = 0 ∧
  State.reset.fr.timer = 0 ∧ memRead State.reset 0x20 = 0x00 ∧ State.reset.wr.expect = 0 ∧ State.reset.wr.req = 0 ∧
  State.reset.wr.raw = 0 ∧ State.reset.wr.d0 = 0x00 ∧ State.reset.wr.d1 = 0x00 ∧ State.reset.wr.count = 0 ∧
  State.reset.sys.illOp = false ∧ ∀ i, State.reset.fr.buf.read i = none ∧ State.reset.wr.buf.read i = none

/-- R53: the read-port map, every address. Of the two choices R53 leaves a model for a buffer entry at or beyond its
count, refusing the read or a free draw, the model takes the free draw `Config.freeByte` (the model's choice, log 2). -/
def Obligations.ReadPortMap : Prop :=
  ∀ s : State,
    memRead s 0x00 = s.chk.acc ∧ memRead s 0x01 = ~~~ s.chk.acc ∧ memRead s 0x02 = s.crc8.reg ∧
    memRead s 0x03 = s.crc8.reg ^^^ Config.crc8XorOut ∧ memRead s 0x04 = s.esc.out0 ∧ memRead s 0x05 = s.esc.out1 ∧
    (memRead s 0x06).toNat = s.esc.cnt.val ∧
    (memRead s 0x07).toNat = s.desc.pend.toNat + 2 * s.desc.valid.toNat + 4 * s.desc.err.toNat ∧
    memRead s 0x08 = s.desc.out ∧ (memRead s 0x09).toNat = s.sys.illOp.toNat ∧
    (memRead s 0x10).toNat = s.fr.state.code.toNat + 8 * s.fr.pend.toNat + 16 * s.fr.cause.code.toNat ∧
    (memRead s 0x11).toNat = s.fr.count.val ∧
    (memRead s 0x12).toNat + 256 * (memRead s 0x13).toNat = s.fr.timer.toNat ∧
    memRead s 0x14 = frEntry s.draws s.fr 0 ∧ memRead s 0x15 = frEntry s.draws s.fr 1 ∧
    memRead s 0x16 = frEntry s.draws s.fr 2 ∧ memRead s 0x17 = frEntry s.draws s.fr 3 ∧
    memRead s 0x18 = (if s.fr.count = 0 then Config.freeByte s.draws 0x18
      else frEntry s.draws s.fr (s.fr.count.val - 1)) ∧
    (memRead s 0x20).toNat = s.wr.state.code.toNat + 16 * s.wr.phase.code.toNat ∧
    (memRead s 0x21).toNat = s.wr.expect.val ∧ (memRead s 0x22).toNat = s.wr.req.val ∧
    (memRead s 0x23).toNat = s.wr.raw.val ∧ (memRead s 0x24).toNat = s.wr.count.val ∧
    memRead s 0x25 = s.wr.d0 ∧ memRead s 0x26 = s.wr.d1 ∧
    (∀ i < 45, memRead s (BitVec.ofNat 8 (0x40 + i)) = frEntry s.draws s.fr i) ∧
    (∀ i < 40, memRead s (BitVec.ofNat 8 (0x80 + i)) = wrEntry s.draws s.wr i) ∧
    (∀ i b, i < s.fr.count.val → s.fr.buf.read i = some b → frEntry s.draws s.fr i = b) ∧
    (∀ i, s.fr.count.val ≤ i → frEntry s.draws s.fr i = Config.freeByte s.draws (0x40 + i)) ∧
    (∀ i b, i < s.wr.count.val → s.wr.buf.read i = some b → wrEntry s.draws s.wr i = b) ∧
    (∀ i, s.wr.count.val ≤ i → wrEntry s.draws s.wr i = Config.freeByte s.draws (0x80 + i)) ∧
    (∀ a : RAddr, (0x0A ≤ a.toNat ∧ a.toNat ≤ 0x0F) ∨ (0x19 ≤ a.toNat ∧ a.toNat ≤ 0x1F) ∨
      (0x27 ≤ a.toNat ∧ a.toNat ≤ 0x3F) ∨ (0x6D ≤ a.toNat ∧ a.toNat ≤ 0x7F) ∨ 0xA8 ≤ a.toNat → memRead s a = 0x00)

/-- R52: a read returns the byte of the state before the operation of its step, also while `rst` = 1, and has no side
effect: the step does the same whatever the read address is. -/
def Obligations.ReadSeesStateBeforeAndHasNoEffect : Prop :=
  ∀ (s : State) (p : PortIn) (rest : List PortIn) (a : RAddr), s.inputs = p :: rest →
    rdata s = some (memRead s p.raddr) ∧ step s = step { s with inputs := { p with raddr := a } :: rest }

/-! ## CHK -/

/-- R101, R102 with their encodings: CHK.CLR clears the accumulator (CHK_OUT then reads 0xFF), CHK.ADD adds a byte modulo 256. -/
def Obligations.ChkClearAndAdd : Prop :=
  ∀ (s : State) (b : Byte),
    decode (0x1#4 ++ b) = .chkClr ∧ decode (0x2#4 ++ b) = .chkAdd b ∧
    (∃ t, exec .chkClr s = .next t ∧ t = { s with chk := t.chk } ∧ t.chk.acc = 0x00 ∧ memRead t 0x01 = 0xFF) ∧
    (∃ t, exec (.chkAdd b) s = .next t ∧ t = { s with chk := t.chk } ∧
      t.chk.acc.toNat = (s.chk.acc.toNat + b.toNat) % 256)

/-- R103: CHK_OUT reads the complement of the accumulator at any time; after CHK.CLR and additions of a sequence, with
operations of other units in any number between, it reads the checksum of the sequence. -/
def Obligations.ChkOutIsChecksumOfAddedBytes : Prop :=
  (∀ s, memRead s 0x00 = s.chk.acc ∧ memRead s 0x01 = ~~~ s.chk.acc) ∧
  ∀ (s : State) (is : List Instr) (bs : List Byte), s.Inv →
    is.filter (fun i => i.unitOf = .chk) = bs.map Instr.chkAdd →
    ∃ t, runOps (.chkClr :: is) s = .next t ∧ memRead t 0x01 = chk8 bs

/-- R100: the definition of the checksum and its laws 1 to 6. -/
def Obligations.ChecksumLaws : Prop :=
  (∀ bs : List Byte, (chk8 bs).toNat = 255 - (bs.map BitVec.toNat).sum % 256) ∧
  chk8 [] = 0xFF ∧
  (∀ bs cs : List Byte, bs.Perm cs → chk8 bs = chk8 cs) ∧
  (∀ bs : List Byte, ((bs.map BitVec.toNat).sum + (chk8 bs).toNat) % 256 = 0xFF) ∧
  (∀ (pre post : List Byte) (b : Byte) (k : Nat), k < 8 →
    chk8 (pre ++ (b ^^^ (1#8 <<< k)) :: post) ≠ chk8 (pre ++ b :: post)) ∧
  (∀ (pre mid post : List Byte) (a b : Byte),
    chk8 (pre ++ (a + 1) :: mid ++ (b - 1) :: post) = chk8 (pre ++ a :: mid ++ b :: post)) ∧
  ∀ pre post : List Byte, chk8 (pre ++ 0x00 :: post) = chk8 (pre ++ post)

/-! ## CRC8 -/

/-- R110, R111 with their encodings: CRC8.INIT loads 0xFF; CRC8.UPD feeds one byte in eight iterations, most significant bit first; the
example of R111. -/
def Obligations.Crc8InitAndUpdate : Prop :=
  (∀ (s : State) (b : Byte),
    decode (0x3#4 ++ b) = .crc8Init ∧ decode (0x4#4 ++ b) = .crc8Upd b ∧
    (∃ t, exec .crc8Init s = .next t ∧ t = { s with crc8 := t.crc8 } ∧ t.crc8.reg = 0xFF) ∧
    (∃ t, exec (.crc8Upd b) s = .next t ∧ t = { s with crc8 := t.crc8 } ∧
      t.crc8.reg = (fun c : Byte => if c.getLsbD 7 then (c <<< 1) ^^^ 0x31 else c <<< 1)^[8] (s.crc8.reg ^^^ b))) ∧
  (∀ c b : Byte, crc8Step c b = crc8Step (c ^^^ b) 0x00) ∧ crc8Step 0x00 0x00 = 0x00 ∧ crc8Step 0xFF 0xBE = 0x0C

/-- R113: after CRC8.INIT and the two data bytes of a word, with operations of other units in any number between,
CRC8_OUT reads `crc8_word`. -/
def Obligations.Crc8OutIsCrcOfTheWord : Prop :=
  (∀ d0 d1, crc8Word d0 d1 = crc8Step (crc8Step 0xFF d0) d1 ^^^ Config.crc8XorOut) ∧
  ∀ (s : State) (is : List Instr) (d0 d1 : Byte), s.Inv →
    is.filter (fun i => i.unitOf = .crc8) = [.crc8Upd d0, .crc8Upd d1] →
    ∃ t, runOps (.crc8Init :: is) s = .next t ∧ memRead t 0x03 = crc8Word d0 d1

/-- R114: every one of the 16 single-bit changes of a word changes its CRC byte; linearity, with the value of the zero
word; and the residue: a word followed by its own CRC byte leaves the register at 0. -/
def Obligations.Crc8WordLaws : Prop :=
  (∀ (d0 d1 : Byte) (k : Nat), k < 8 →
    crc8Word (d0 ^^^ (1#8 <<< k)) d1 ≠ crc8Word d0 d1 ∧ crc8Word d0 (d1 ^^^ (1#8 <<< k)) ≠ crc8Word d0 d1) ∧
  (∀ a0 a1 b0 b1 : Byte,
    crc8Word (a0 ^^^ b0) (a1 ^^^ b1) = crc8Word a0 a1 ^^^ crc8Word b0 b1 ^^^ crc8Word 0x00 0x00) ∧
  crc8Word 0x00 0x00 = 0x81 ∧
  ∀ d0 d1 : Byte, crc8Step (crc8Step (crc8Step 0xFF d0) d1) (crc8Word d0 d1) = 0x00

/-! ## ESC and DESC -/

/-- R120 with its encoding: ESC.PUT on each of the four reserved bytes and on every other byte. -/
def Obligations.EscPutEscapesOneByte : Prop :=
  ∀ (s : State) (b : Byte), decode (0x5#4 ++ b) = .escPut b ∧ ∃ t, exec (.escPut b) s = .next t ∧ t = { s with esc := t.esc } ∧
    (b = 0x11 → t.esc = ⟨0x7D, 0x31, 2⟩) ∧ (b = 0x13 → t.esc = ⟨0x7D, 0x33, 2⟩) ∧
    (b = 0x7D → t.esc = ⟨0x7D, 0x5D, 2⟩) ∧ (b = 0x7E → t.esc = ⟨0x7D, 0x5E, 2⟩) ∧
    (b ≠ 0x11 ∧ b ≠ 0x13 ∧ b ≠ 0x7D ∧ b ≠ 0x7E → t.esc = ⟨b, 0x00, 1⟩)

/-- R121: `stuff` is the concatenation of the valid outputs, and its laws: between k+1 and 2(k+1) bytes, never 0x7E,
0x11 or 0x13, every 0x7D followed by a replacement byte, the identity on a sequence with no reserved byte. -/
def Obligations.StuffLaws : Prop :=
  ∀ bs : List Byte,
    (∀ b, stuff (b :: bs) = (if (escPut b).cnt = 2 then [(escPut b).out0, (escPut b).out1] else [(escPut b).out0]) ++
      stuff bs) ∧ stuff [] = [] ∧
    bs.length ≤ (stuff bs).length ∧ (stuff bs).length ≤ 2 * bs.length ∧
    (0x7E : Byte) ∉ stuff bs ∧ (0x11 : Byte) ∉ stuff bs ∧ (0x13 : Byte) ∉ stuff bs ∧
    (∀ k : Nat, (stuff bs)[k]? = some 0x7D →
      ∃ x ∈ ([0x31, 0x33, 0x5D, 0x5E] : List Byte), (stuff bs)[k + 1]? = some x) ∧
    ((∀ b ∈ bs, b ∉ ([0x11, 0x13, 0x7D, 0x7E] : List Byte)) → stuff bs = bs)

/-- R124, R125 with their encodings: DESC.CLR returns DESC to its start state; DESC.PUT in each of its cases. -/
def Obligations.DescClearAndPut : Prop :=
  ∀ (s : State) (b : Byte),
    decode (0x6#4 ++ b) = .descClr ∧ decode (0x7#4 ++ b) = .descPut b ∧
    exec .descClr s = .next { s with desc := ⟨false, false, false, 0x00⟩ } ∧
    ∃ t, exec (.descPut b) s = .next t ∧ t = { s with desc := t.desc } ∧
      if s.desc.err then t.desc = s.desc
      else if s.desc.pend then
        if b = 0x31 then t.desc = ⟨false, true, false, 0x11⟩
        else if b = 0x33 then t.desc = ⟨false, true, false, 0x13⟩
        else if b = 0x5D then t.desc = ⟨false, true, false, 0x7D⟩
        else if b = 0x5E then t.desc = ⟨false, true, false, 0x7E⟩
        else t.desc = ⟨false, false, true, s.desc.out⟩
      else if b = 0x7D then t.desc = ⟨true, false, false, s.desc.out⟩
      else t.desc = ⟨false, true, false, b⟩

/-- R126: unstuffing a stuffed sequence gives the sequence back, for every byte sequence; so `stuff` is one-to-one
(R127). -/
def Obligations.UnstuffStuffRoundTrip : Prop :=
  (∀ bs : List Byte, unstuff (stuff bs) = some bs) ∧ ∀ bs cs : List Byte, stuff bs = stuff cs → bs = cs

/-! ## FR -/

/-- R140 with its encoding, R141: FR.START begins a fresh attempt from a state that is not active, with every buffer entry unspecified,
and is ignored in an active one. -/
def Obligations.FrStartBeginsAnAttempt : Prop :=
  (∀ a : Byte, decode (0x8#4 ++ a) = .frStart) ∧
  ∀ s : State,
    if s.fr.state = .awaitHeader ∨ s.fr.state = .reading then exec .frStart s = .next s
    else ∃ t, exec .frStart s = .next t ∧ t = { s with fr := t.fr } ∧ t.fr.state = .awaitHeader ∧ t.fr.cause = .none ∧
      t.fr.pend = false ∧ t.fr.count = 0 ∧ t.fr.timer = 0 ∧ ∀ i, t.fr.buf.read i = none

/-- R143, R144, R161: FR.BYTE opens the frame on 0x7E, fails the attempt on any other first byte, and is ignored
outside an attempt. -/
def Obligations.FrByteOutsideReading : Prop :=
  ∀ (s : State) (b : Byte),
    (s.fr.state = .awaitHeader → exec (.frByte b) s = .next { s with fr :=
      if b = 0x7E then { s.fr with state := .reading } else { s.fr with state := .protocolError, cause := .badHeader } }) ∧
    (s.fr.state = .idle ∨ s.fr.state = .complete ∨ s.fr.state = .timedOut ∨ s.fr.state = .protocolError →
      exec (.frByte b) s = .next s)

/-- R146, R147: the marker sets the pending flag and stores nothing; the byte after it is mapped back and stored at
index `fr_count` (or OVERFLOW), or it is BAD_STUFFING, which comes first. -/
def Obligations.FrByteEscapeSequence : Prop :=
  ∀ (s : State) (b : Byte), s.fr.state = .reading →
    (s.fr.pend = false → exec (.frByte 0x7D) s = .next { s with fr := { s.fr with pend := true } }) ∧
    (s.fr.pend = true → ∃ t, exec (.frByte b) s = .next t ∧ t = { s with fr := t.fr } ∧
      t.fr.pend = false ∧ t.fr.timer = s.fr.timer ∧
      (∀ v, (b = 0x31 ∧ v = 0x11) ∨ (b = 0x33 ∧ v = 0x13) ∨ (b = 0x5D ∧ v = 0x7D) ∨ (b = 0x5E ∧ v = 0x7E) →
        if s.fr.count.val = 45 then
          t.fr = { s.fr with pend := false, state := .protocolError, cause := .overflow }
        else t.fr.state = .reading ∧ t.fr.cause = s.fr.cause ∧ t.fr.count.val = s.fr.count.val + 1 ∧
          t.fr.buf.read s.fr.count.val = some v ∧ ∀ i, i ≠ s.fr.count.val → t.fr.buf.read i = s.fr.buf.read i) ∧
      (b ≠ 0x31 ∧ b ≠ 0x33 ∧ b ≠ 0x5D ∧ b ≠ 0x5E →
        t.fr = { s.fr with pend := false, state := .protocolError, cause := .badStuffing }))

/-- R148, R150, R151: any other byte is stored verbatim at index `fr_count`; the 46th raises OVERFLOW and changes neither
buffer nor count. -/
def Obligations.FrByteStoresVerbatim : Prop :=
  ∀ (s : State) (b : Byte), s.fr.state = .reading → s.fr.pend = false → b ≠ 0x7D → b ≠ 0x7E →
    if s.fr.count.val = 45 then
      exec (.frByte b) s = .next { s with fr := { s.fr with state := .protocolError, cause := .overflow } }
    else ∃ t, exec (.frByte b) s = .next t ∧ t = { s with fr := t.fr } ∧ t.fr.state = .reading ∧
      t.fr.cause = s.fr.cause ∧ t.fr.pend = false ∧ t.fr.timer = s.fr.timer ∧ t.fr.count.val = s.fr.count.val + 1 ∧
      t.fr.buf.read s.fr.count.val = some b ∧ ∀ i, i ≠ s.fr.count.val → t.fr.buf.read i = s.fr.buf.read i

/-- R154: the closing header runs the checks in their fixed order, and changes nothing but the state and the cause. -/
def Obligations.FrClosingHeaderRunsTheChecks : Prop :=
  ∀ s : State, s.fr.state = .reading → s.fr.pend = false →
    ∃ t, exec (.frByte 0x7E) s = .next t ∧
      t = { s with fr := { s.fr with state := t.fr.state, cause := t.fr.cause } } ∧
      if s.fr.count.val < 3 then t.fr.state = .protocolError ∧ t.fr.cause = .tooShort
      else if s.fr.count.val < 5 ∨ s.fr.count.val ≠ (frEntry s.draws s.fr 3).toNat + 5 then
        t.fr.state = .protocolError ∧ t.fr.cause = .lenMismatch
      else if chk8 ((List.range (s.fr.count.val - 1)).map (frEntry s.draws s.fr)) ≠
          frEntry s.draws s.fr (s.fr.count.val - 1) then
        t.fr.state = .protocolError ∧ t.fr.cause = .chkMismatch
      else t.fr.state = .complete ∧ t.fr.cause = s.fr.cause

/-- R162 with its encoding: FR.TICK advances the timer of a running attempt and ends it when the new value exceeds FR_TIMEOUT_TICKS; it is
ignored otherwise. -/
def Obligations.FrTickAndTheDeadline : Prop :=
  (∀ a : Byte, decode (0xA#4 ++ a) = .frTick) ∧
  ∀ s : State,
    (s.fr.state = .awaitHeader ∨ s.fr.state = .reading → ∃ t, exec .frTick s = .next t ∧
      t = { s with fr := { s.fr with state := t.fr.state, timer := t.fr.timer } } ∧ t.fr.timer = s.fr.timer + 1 ∧
      t.fr.state = if s.fr.timer.toNat + 1 > Config.frTimeoutTicks then .timedOut else s.fr.state) ∧
    (s.fr.state = .idle ∨ s.fr.state = .complete ∨ s.fr.state = .timedOut ∨ s.fr.state = .protocolError →
      exec .frTick s = .next s)

/-- R213, R212: FR leaves a state that is not active only by FR.START or reset, and until then nothing of it changes
(R166). -/
def Obligations.FrFinishedStateLeftOnlyByStartOrReset : Prop :=
  ∀ s t : State, step s = .next t → s.fr.state.active = false → s.action ≠ .reset → s.action ≠ .execute .frStart →
    t.fr = s.fr

/-- R201, R202, R140, R143 and decision D14: FR enters TIMED_OUT only by FR.TICK with the timer at FR_TIMEOUT_TICKS,
PROTOCOL_ERROR only by FR.BYTE, READING only by a header in AWAIT_HEADER, AWAIT_HEADER only by an accepted FR.START, IDLE by
no operation, and COMPLETE only by a closing header on an accumulated frame that passes every check. -/
def Obligations.FrOutcomesHaveTheirOnlyCauses : Prop :=
  ∀ (i : Instr) (s t : State), s.Inv → exec i s = .next t → t.fr.state ≠ s.fr.state →
    (t.fr.state = .timedOut → i = .frTick ∧ s.fr.timer.toNat = Config.frTimeoutTicks) ∧
    (t.fr.state = .protocolError → ∃ b, i = .frByte b) ∧
    (t.fr.state = .complete → i = .frByte 0x7E ∧ s.fr.state = .reading ∧ s.fr.pend = false ∧ t.fr.goodFrame) ∧
    (t.fr.state = .reading → i = .frByte 0x7E ∧ s.fr.state = .awaitHeader) ∧
    (t.fr.state = .awaitHeader → i = .frStart ∧ s.fr.state.active = false) ∧ t.fr.state ≠ .idle

/-- R216: the timer is set to 0 by an accepted FR.START, advanced by FR.TICK in an active state, and changed by nothing
else. -/
def Obligations.FrTimerChangesOnlyByStartAndTick : Prop :=
  ∀ (i : Instr) (s t : State), exec i s = .next t →
    if i = .frStart ∧ s.fr.state.active = false then t.fr.timer = 0
    else if i = .frTick ∧ s.fr.state.active = true then t.fr.timer = s.fr.timer + 1
    else t.fr.timer = s.fr.timer

/-- R168 item 4 (the source's round trip) for the reply layout of R72, with R163: a reply of at most 40 payload bytes,
delivered with at most FR_TIMEOUT_TICKS ticks anywhere between, ends COMPLETE with every byte of it in the buffer, as
the read port shows (R159), and nothing outside FR changed. -/
def Obligations.ReplyFrameRoundTrip : Prop :=
  ∀ (s : State) (addr cmd st : Byte) (payload : List Byte) (es : List Instr),
    s.fr.state.active = false → payload.length ≤ 40 →
    (∀ i ∈ es, i = .frTick ∨ ∃ b, i = .frByte b) → es.count .frTick ≤ Config.frTimeoutTicks →
    es.filterMap Instr.frWireByte = replyWire addr cmd st payload →
    ∃ t, runOps (.frStart :: es) s = .next t ∧ t = { s with fr := t.fr } ∧
      t.fr.state = .complete ∧ t.fr.cause = .none ∧ t.fr.pend = false ∧ t.fr.count.val = payload.length + 5 ∧
      ∀ (j : Nat) (h : j < (replyBody addr cmd st payload).length),
        memRead t (BitVec.ofNat 8 (0x40 + j)) = (replyBody addr cmd st payload)[j]

/-- R157 with R168 item 3: a reply whose checksum byte is any other than the recomputed one ends in
PROTOCOL_ERROR(CHK_MISMATCH), whatever its state byte. -/
def Obligations.WrongChecksumIsRejected : Prop :=
  ∀ (s : State) (addr cmd st c : Byte) (payload : List Byte),
    s.fr.state.active = false → payload.length ≤ 40 →
    c ≠ chk8 (addr :: cmd :: st :: BitVec.ofNat 8 payload.length :: payload) →
    ∃ t, runOps (.frStart :: .frByte 0x7E ::
        ((stuff (addr :: cmd :: st :: BitVec.ofNat 8 payload.length :: (payload ++ [c]))).map Instr.frByte ++
          [.frByte 0x7E])) s = .next t ∧
      t = { s with fr := t.fr } ∧ t.fr.state = .protocolError ∧ t.fr.cause = .chkMismatch ∧
      t.fr.count.val = payload.length + 5

/-- R167: after an accepted FR.START, every sequence of operations with at least FR_TIMEOUT_TICKS + 1 FR.TICK operations
reaches a terminal state. -/
def Obligations.ReadAttemptEndsByTheDeadline : Prop :=
  ∀ (s : State) (is : List Instr), s.Inv → s.fr.state.active = false →
    Config.frTimeoutTicks + 1 ≤ is.count .frTick →
    ∃ k ≤ is.length, ∃ t, runOps (.frStart :: is.take k) s = .next t ∧
      (t.fr.state = .complete ∨ t.fr.state = .timedOut ∨ t.fr.state = .protocolError)

/-! ## WR -/

/-- R170 with its encoding, R171 to R173: WR.START is ignored in READING, refused with `ill_op` above 40, and otherwise begins a fresh read with
the request count `(n div 2) * 3`, ending at once when nothing can be requested. -/
def Obligations.WrStartBeginsARead : Prop :=
  ∀ (s : State) (n : Byte), decode (0xB#4 ++ n) = .wrStart n ∧
    (s.wr.state = .reading → exec (.wrStart n) s = .next s) ∧
    (s.wr.state ≠ .reading → 40 < n.toNat → exec (.wrStart n) s = .next { s with sys := ⟨true⟩ }) ∧
    (s.wr.state ≠ .reading → n.toNat ≤ 40 → ∃ t, exec (.wrStart n) s = .next t ∧ t = { s with wr := t.wr } ∧
      t.wr.expect.val = n.toNat ∧ t.wr.req.val = n.toNat / 2 * 3 ∧ t.wr.raw = 0 ∧ t.wr.phase = .first ∧
      t.wr.d0 = 0x00 ∧ t.wr.d1 = 0x00 ∧ t.wr.count = 0 ∧ (∀ i, t.wr.buf.read i = none) ∧
      t.wr.state = if n.toNat / 2 = 0 then .errNoData else .reading)

/-- R174 with its encoding, R175: WR.BYTE in READING, each phase and each outcome, where `wr_raw` and `wr_count` stay in their ranges (R30; in
every state that meets the invariant they do). -/
def Obligations.WrByteConsumesOneRawByte : Prop :=
  ∀ (s : State) (b : Byte), s.wr.state = .reading → s.wr.raw.val < 60 → (s.wr.phase = .crc → s.wr.count.val ≤ 38) →
    decode (0xC#4 ++ b) = .wrByte b ∧ ∃ t, exec (.wrByte b) s = .next t ∧ t = { s with wr := t.wr } ∧ t.wr.raw.val = s.wr.raw.val + 1 ∧
      t.wr.expect = s.wr.expect ∧ t.wr.req = s.wr.req ∧
      (s.wr.phase = .first ∨ s.wr.phase = .second →
        t.wr.count = s.wr.count ∧ t.wr.buf = s.wr.buf ∧
        t.wr.state = if s.wr.raw.val + 1 = s.wr.req.val then
          (if s.wr.count = 0 then .errNoData else .errShort) else .reading) ∧
      (s.wr.phase = .first → t.wr.d0 = b ∧ t.wr.d1 = s.wr.d1 ∧ t.wr.phase = .second) ∧
      (s.wr.phase = .second → t.wr.d0 = s.wr.d0 ∧ t.wr.d1 = b ∧ t.wr.phase = .crc) ∧
      (s.wr.phase = .crc → t.wr.d0 = s.wr.d0 ∧ t.wr.d1 = s.wr.d1 ∧ t.wr.phase = .first ∧
        if b = crc8Word s.wr.d0 s.wr.d1 then
          t.wr.count.val = s.wr.count.val + 2 ∧ t.wr.buf.read s.wr.count.val = some s.wr.d0 ∧
          t.wr.buf.read (s.wr.count.val + 1) = some s.wr.d1 ∧
          (∀ i, i ≠ s.wr.count.val → i ≠ s.wr.count.val + 1 → t.wr.buf.read i = s.wr.buf.read i) ∧
          t.wr.state = if s.wr.expect.val ≤ s.wr.count.val + 2 then .done
            else if s.wr.raw.val + 1 = s.wr.req.val then .errShort else .reading
        else t.wr.count = s.wr.count ∧ t.wr.buf = s.wr.buf ∧ t.wr.state = .errCrc)

/-- R180 with its encoding, R181: WR.END ends a running read with ERR_NO_DATA or ERR_SHORT and keeps everything else; WR.BYTE and WR.END
outside READING are ignored. -/
def Obligations.WrEndAndIgnoredOperations : Prop :=
  ∀ (s : State) (b : Byte), decode (0xD#4 ++ b) = .wrEnd ∧
    (s.wr.state = .reading → exec .wrEnd s = .next { s with wr :=
      { s.wr with state := if s.wr.count = 0 then .errNoData else .errShort } }) ∧
    (s.wr.state ≠ .reading → exec .wrEnd s = .next s ∧ exec (.wrByte b) s = .next s)

/-- The model's choice (log 7): the only stop of any operation is WR.BYTE's, in READING with `wr_raw` at 60 or, at the
CRC byte of a matching group, `wr_count` above 38; a state that meets the invariant is none of these (R37). -/
def Obligations.OnlyStopIsWrByteOutOfRange : Prop :=
  ∀ (i : Instr) (s : State),
    (∀ r, exec i s ≠ .refused r) ∧
    ((∃ r, exec i s = .fault r) ↔ ∃ b, i = .wrByte b ∧ s.wr.state = .reading ∧
      (s.wr.raw.val = 60 ∨ (s.wr.phase = .crc ∧ b = crc8Word s.wr.d0 s.wr.d1 ∧ 38 < s.wr.count.val))) ∧
    (s.Inv → s.wr.state = .reading → s.wr.raw.val < 60 ∧ s.wr.count.val ≤ 38)

/-- WR leaves a state other than READING only by WR.START or reset, and until then nothing of it changes (R181, R213). -/
def Obligations.WrFinishedStateLeftOnlyByStartOrReset : Prop :=
  ∀ s t : State, step s = .next t → s.wr.state ≠ .reading → s.action ≠ .reset →
    (∀ n, s.action ≠ .execute (.wrStart n)) → t.wr = s.wr

/-- R75, R178, R177: reading a reply of k words, 1 to 20, ends DONE when the last requested byte is consumed, with the
data bytes in the buffer in wire order, as the read port shows; WR_REQ reads 3k after the start. -/
def Obligations.WordReplyRoundTrip : Prop :=
  ∀ (s : State) (words : List (Byte × Byte)), s.wr.state ≠ .reading → words ≠ [] → words.length ≤ 20 →
    ∃ u t, exec (.wrStart (BitVec.ofNat 8 (2 * words.length))) s = .next u ∧
      (memRead u 0x22).toNat = 3 * words.length ∧
      runOps ((i2cReply words).map Instr.wrByte) u = .next t ∧ t = { s with wr := t.wr } ∧
      t.wr.state = .done ∧ t.wr.raw = t.wr.req ∧ t.wr.count.val = 2 * words.length ∧
      ∀ (j : Nat) (h : j < (wordBytes words).length), memRead t (BitVec.ofNat 8 (0x80 + j)) = (wordBytes words)[j]

/-- R176, R181: a group whose third byte is not its CRC-8 ends the read in ERR_CRC, with the data of the groups before
it collected and its own left in the two data registers, whatever bytes still follow. -/
def Obligations.BadGroupEndsTheRead : Prop :=
  ∀ (s : State) (words : List (Byte × Byte)) (d0 d1 c n : Byte) (rest : List Byte), s.wr.state ≠ .reading →
    2 * (words.length + 1) ≤ n.toNat → n.toNat ≤ 40 → c ≠ crc8Word d0 d1 →
    ∃ t, runOps (.wrStart n :: (i2cReply words ++ d0 :: d1 :: c :: rest).map Instr.wrByte) s = .next t ∧
      t = { s with wr := t.wr } ∧ t.wr.state = .errCrc ∧ t.wr.d0 = d0 ∧ t.wr.d1 = d1 ∧ t.wr.phase = .first ∧
      t.wr.count.val = 2 * words.length ∧ t.wr.raw.val = 3 * words.length + 3 ∧
      ∀ (j : Nat) (h : j < (wordBytes words).length), memRead t (BitVec.ofNat 8 (0x80 + j)) = (wordBytes words)[j]

/-- R179, R180: a reply that ends early, in or between groups, ends the read by WR.END with ERR_NO_DATA when no group
passed and ERR_SHORT otherwise, with the data bytes of the whole groups collected and nothing of the unfinished one. -/
def Obligations.ShortReplyEndsTheRead : Prop :=
  ∀ (s : State) (words : List (Byte × Byte)) (part : List Byte) (n : Byte), s.wr.state ≠ .reading →
    2 * (words.length + 1) ≤ n.toNat → n.toNat ≤ 40 → part.length ≤ 2 →
    ∃ t, runOps (.wrStart n :: ((i2cReply words ++ part).map Instr.wrByte ++ [.wrEnd])) s = .next t ∧
      t = { s with wr := t.wr } ∧ t.wr.state = (if words = [] then .errNoData else .errShort) ∧
      t.wr.phase.index = part.length ∧ t.wr.count.val = 2 * words.length ∧
      t.wr.raw.val = 3 * words.length + part.length ∧
      ∀ (j : Nat) (h : j < (wordBytes words).length), memRead t (BitVec.ofNat 8 (0x80 + j)) = (wordBytes words)[j]

/-- R173, R179: with an odd expected length 2k + 1 the read ends ERR_SHORT by itself after its k whole groups. -/
def Obligations.OddLengthEndsShort : Prop :=
  ∀ (s : State) (words : List (Byte × Byte)), s.wr.state ≠ .reading → words ≠ [] → 2 * words.length + 1 ≤ 40 →
    ∃ t, runOps (.wrStart (BitVec.ofNat 8 (2 * words.length + 1)) :: (i2cReply words).map Instr.wrByte) s = .next t ∧
      t = { s with wr := t.wr } ∧ t.wr.state = .errShort ∧ t.wr.count.val = 2 * words.length ∧ t.wr.raw = t.wr.req

/-- R186: from an accepted WR.START with n at least 2, the read reaches a terminal state after at most `wr_req` WR.BYTE
operations or one WR.END, whatever other operations are between. -/
def Obligations.WordReadEnds : Prop :=
  ∀ (s : State) (n : Byte) (is : List Instr), s.Inv → s.wr.state ≠ .reading → 2 ≤ n.toNat → n.toNat ≤ 40 →
    .wrEnd ∈ is ∨ n.toNat / 2 * 3 ≤ is.countP Instr.isWrByte →
    ∃ k ≤ is.length, ∃ t, runOps (.wrStart n :: is.take k) s = .next t ∧
      (t.wr.state = .done ∨ t.wr.state = .errCrc ∨ t.wr.state = .errNoData ∨ t.wr.state = .errShort)

/-! ## SYS and the whole machine -/

/-- R193: the reserved opcodes, with any argument bits, set `ill_op` and change nothing else; the step completes. -/
def Obligations.ReservedOpcodesSetIllOpOnly : Prop :=
  ∀ (s : State) (a : Byte),
    exec (decode (0xE#4 ++ a)) s = .next { s with sys := ⟨true⟩ } ∧
    exec (decode (0xF#4 ++ a)) s = .next { s with sys := ⟨true⟩ }

/-- R206: `ill_op` is set by exactly the operations that raise IllegalOperation, is cleared only by a reset step, and
does not change what any operation does elsewhere. -/
def Obligations.IllOpIsStickyAndHarmless : Prop :=
  (∀ (i : Instr) (s t : State), exec i s = .next t → t.sys.illOp = (s.sys.illOp || i.illegal s.wr)) ∧
  (∀ s t : State, step s = .next t → if s.action = .reset then t.sys.illOp = false else
    (s.sys.illOp = true → t.sys.illOp = true)) ∧
  ∀ (i : Instr) (s t : State) (y : SysUnit), exec i s = .next t →
    ∃ y', exec i { s with sys := y } = .next { t with sys := y' }

/-- R21: an operation writes the state of its own unit only (and `ill_op` where it raises IllegalOperation), no buffer
entry or register behind another unit's read addresses, and neither of the model's own fields. -/
def Obligations.OperationWritesOnlyItsUnit : Prop :=
  ∀ (i : Instr) (s t : State), exec i s = .next t →
    (i.unitOf ≠ .chk → t.chk = s.chk) ∧ (i.unitOf ≠ .crc8 → t.crc8 = s.crc8) ∧ (i.unitOf ≠ .esc → t.esc = s.esc) ∧
    (i.unitOf ≠ .desc → t.desc = s.desc) ∧ (i.unitOf ≠ .fr → t.fr = s.fr) ∧ (i.unitOf ≠ .wr → t.wr = s.wr) ∧
    (i.illegal s.wr = false → t.sys = s.sys) ∧ (i.illegal s.wr = true → t = { s with sys := t.sys }) ∧
    t.inputs = s.inputs ∧ t.draws = s.draws ∧
    ∀ a : RAddr, addrUnit a ≠ i.unitOf → (addrUnit a = .sys → i.illegal s.wr = false) → memRead t a = memRead s a

/-- R21: what an operation does to its unit depends on that unit alone (FR also on the free draws, which stand for
entries no run reads; what WR.START does to `ill_op` on WR and `ill_op`): no CHK, CRC8, ESC or DESC operation can change what FR or WR does, and the reverse. -/
def Obligations.OperationReadsOnlyItsUnit : Prop :=
  ∀ (i : Instr) (s s' t t' : State), exec i s = .next t → exec i s' = .next t' →
    (i.unitOf = .chk → s.chk = s'.chk → t.chk = t'.chk) ∧
    (i.unitOf = .crc8 → s.crc8 = s'.crc8 → t.crc8 = t'.crc8) ∧
    (i.unitOf = .esc → t.esc = t'.esc) ∧
    (i.unitOf = .desc → s.desc = s'.desc → t.desc = t'.desc) ∧
    (i.unitOf = .fr → s.fr = s'.fr → s.draws = s'.draws → t.fr = t'.fr) ∧
    (i.unitOf = .fr → s.Inv → s.fr = s'.fr → t.fr = t'.fr) ∧
    (i.unitOf = .wr → s.wr = s'.wr → t.wr = t'.wr) ∧
    (i.unitOf = .sys → s.sys = s'.sys → t.sys = t'.sys) ∧
    (i.unitOf = .wr → s.wr = s'.wr → s.sys = s'.sys → t.sys = t'.sys)

/-- R50: `fr_buf` is written by FR.BYTE only, at index `fr_count`, and `wr_buf` by WR.BYTE only, at indices `wr_count`
and `wr_count + 1`; every other index reads as before, but after a start operation, which leaves every entry of its
buffer unspecified. -/
def Obligations.BuffersAreWrittenAtTheirCount : Prop :=
  ∀ (i : Instr) (s t : State), exec i s = .next t →
    (∀ j, i ≠ .frStart → ((∃ b, i = .frByte b) → j ≠ s.fr.count.val) → t.fr.buf.read j = s.fr.buf.read j) ∧
    (∀ j, (∀ n, i ≠ .wrStart n) → ((∃ b, i = .wrByte b) → j ≠ s.wr.count.val ∧ j ≠ s.wr.count.val + 1) →
      t.wr.buf.read j = s.wr.buf.read j) ∧
    (∀ j, i = .frStart → t.fr.buf.read j = s.fr.buf.read j ∨ t.fr.buf.read j = none) ∧
    (∀ n j, i = .wrStart n → t.wr.buf.read j = s.wr.buf.read j ∨ t.wr.buf.read j = none)

/-- R62: operations of different units commute. -/
def Obligations.OperationsOfDifferentUnitsCommute : Prop :=
  ∀ (i j : Instr) (s : State), i.unitOf ≠ j.unitOf → runOps [i, j] s = runOps [j, i] s

/-- Every operation completes in every state that meets the invariant, and so does every step (R85: every operation
completes in its own step). -/
def Obligations.EveryOperationCompletes : Prop :=
  ∀ s : State, s.Inv → (∀ i, ∃ t, exec i s = .next t) ∧ ∃ t, step s = .next t

/-- The invariant holds after reset (R37, R45). -/
def Obligations.ResetMeetsTheInvariant : Prop := State.reset.Inv

/-- Every step keeps the invariant of R37, from every state that meets it; and `ill_op` once 1 stays 1 until reset (item
10). -/
def Obligations.EveryStepKeepsTheInvariant : Prop :=
  ∀ s t : State, s.Inv → step s = .next t →
    t.Inv ∧ (s.sys.illOp = true → s.action ≠ .reset → t.sys.illOp = true)

/-- Every step keeps both buffers in their canonical form, whatever the state (log 3). -/
def Obligations.EveryStepKeepsBuffersCanonical : Prop :=
  ∀ s t : State, s.fr.buf.wf → s.wr.buf.wf → step s = .next t → t.fr.buf.wf ∧ t.wr.buf.wf
end

