-- ==== Sys2Proof/Laws/Memory.lean ====
section
/-! SUPPORT. The laws of a buffer: read after write, the canonical form, and appending to a buffer that is filled up to
an index. -/

namespace Sys2Proof.Machine

@[simp] theorem Memory.read_nil (a : Nat) : Memory.read [] a = none := rfl

theorem Memory.read_cons (k : Nat) (v : Byte) (m : Memory) (a : Nat) :
    Memory.read ((k, v) :: m) a = if k = a then some v else Memory.read m a := rfl

/-- An entry that is read is listed. -/
theorem Memory.mem_of_read {m : Memory} {a : Nat} {b : Byte} (h : m.read a = some b) : (a, b) ∈ m := by
  induction m with
  | nil => simp at h
  | cons x m ih =>
    obtain ⟨k, v⟩ := x
    rw [Memory.read_cons] at h
    split at h
    · simp_all
    · exact List.mem_cons_of_mem _ (ih h)

/-- A write is read back. -/
@[simp] theorem Memory.read_write_same (m : Memory) (a : Nat) (b : Byte) : (m.write a b).read a = some b := by
  induction m with
  | nil => simp [Memory.write, Memory.read_cons]
  | cons x m ih =>
    obtain ⟨k, v⟩ := x
    simp only [Memory.write]
    split
    · simp [Memory.read_cons]
    · split
      · simp [Memory.read_cons]
      · rw [Memory.read_cons, if_neg (by omega)]
        exact ih

/-- A write leaves every other index alone. -/
theorem Memory.read_write_other (m : Memory) {a i : Nat} (b : Byte) (h : i ≠ a) :
    (m.write a b).read i = m.read i := by
  induction m with
  | nil => simp [Memory.write, Memory.read_cons, Ne.symm h]
  | cons x m ih =>
    obtain ⟨k, v⟩ := x
    simp only [Memory.write]
    split
    · rw [Memory.read_cons, if_neg (Ne.symm h)]
    · split
      · subst_vars
        rw [Memory.read_cons, Memory.read_cons, if_neg (Ne.symm h), if_neg (Ne.symm h)]
      · rw [Memory.read_cons, Memory.read_cons, ih]

/-- The entries after a write are those before it and the one written. -/
theorem Memory.mem_write {m : Memory} {a : Nat} {b : Byte} {x : Host.Cell} (h : x ∈ m.write a b) :
    x = (a, b) ∨ x ∈ m := by
  induction m with
  | nil => simpa [Memory.write] using h
  | cons y m ih =>
    obtain ⟨k, v⟩ := y
    simp only [Memory.write] at h
    split at h
    · simpa using h
    · split at h
      · rcases List.mem_cons.1 h with h | h
        · exact .inl h
        · exact .inr (List.mem_cons_of_mem _ h)
      · rcases List.mem_cons.1 h with h | h
        · exact .inr (by simp [h])
        · exact (ih h).imp_right (List.mem_cons_of_mem _)

/-- The buffer of a start operation or reset is in canonical form. -/
theorem Memory.wf_unspecified : Memory.unspecified.wf := List.Pairwise.nil

/-- A write keeps the canonical form. -/
theorem Memory.wf_write {m : Memory} (a : Nat) (b : Byte) (h : m.wf) : (m.write a b).wf := by
  induction m with
  | nil => simp [Memory.write]
  | cons y m ih =>
    obtain ⟨k, v⟩ := y
    have h' := List.pairwise_cons.1 h
    simp only [Memory.write]
    split
    · refine List.pairwise_cons.2 ⟨fun x hx => ?_, h⟩
      rcases List.mem_cons.1 hx with rfl | hx
      · assumption
      · exact Nat.lt_trans (by assumption) (h'.1 x hx)
    · split
      · subst_vars
        exact List.pairwise_cons.2 ⟨fun x hx => h'.1 x hx, h'.2⟩
      · refine List.pairwise_cons.2 ⟨fun x hx => ?_, ih h'.2⟩
        rcases Memory.mem_write hx with rfl | hx
        · show k < a
          omega
        · exact h'.1 x hx

/-- A buffer filled up to an index is in canonical form. -/
theorem Memory.wf_of_filledTo {m : Memory} {n : Nat} (h : m.filledTo n) : m.wf := by
  have : (m.map Prod.fst).Pairwise (· < ·) := h ▸ List.pairwise_lt_range
  exact List.pairwise_map.1 this

/-- A buffer all of whose indices are below `n` grows at its end when `n` is written. -/
theorem Memory.write_eq_append {m : Memory} {n : Nat} (b : Byte) (h : ∀ x ∈ m, x.1 < n) :
    m.write n b = m ++ [(n, b)] := by
  induction m with
  | nil => rfl
  | cons y m ih =>
    obtain ⟨k, v⟩ := y
    have hk : k < n := h (k, v) (by simp)
    simp only [Memory.write, if_neg (Nat.not_lt.2 hk.le), if_neg (Nat.ne_of_gt hk)]
    rw [ih (fun x hx => h x (List.mem_cons_of_mem _ hx))]
    rfl

theorem Memory.lt_of_filledTo {m : Memory} {n : Nat} (h : m.filledTo n) : ∀ x ∈ m, x.1 < n := by
  intro x hx
  have : x.1 ∈ m.map Prod.fst := List.mem_map_of_mem hx
  rw [h] at this
  exact List.mem_range.1 this

/-- Appending at the fill level raises it by one. -/
theorem Memory.filledTo_write {m : Memory} {n : Nat} (b : Byte) (h : m.filledTo n) : (m.write n b).filledTo (n + 1) := by
  rw [Memory.filledTo, Memory.write_eq_append b (Memory.lt_of_filledTo h), List.map_append, h, List.range_succ]
  rfl

/-- Appending at the fill level appends to the bytes. -/
theorem Memory.bytes_write {m : Memory} {n : Nat} (b : Byte) (h : m.filledTo n) :
    (m.write n b).bytes = m.bytes ++ [b] := by
  rw [Memory.bytes, Memory.write_eq_append b (Memory.lt_of_filledTo h), List.map_append]
  rfl

@[simp] theorem Memory.bytes_length (m : Memory) : m.bytes.length = m.length := by simp [Memory.bytes]

theorem Memory.length_of_filledTo {m : Memory} {n : Nat} (h : m.filledTo n) : m.length = n := by
  have := congrArg List.length h
  simpa using this

/-- Reading a buffer whose indices count on from `k`. -/
theorem Memory.read_of_range' {m : Memory} {k n : Nat} (h : m.map Prod.fst = List.range' k n) (i : Nat) :
    m.read (k + i) = m.bytes[i]? := by
  induction m generalizing k n i with
  | nil => simp [Memory.bytes]
  | cons y m ih =>
    obtain ⟨a, v⟩ := y
    cases n with
    | zero => simp at h
    | succ n =>
      rw [List.range'_succ, List.map_cons] at h
      obtain ⟨rfl, h⟩ := List.cons.inj h
      cases i with
      | zero => simp [Memory.read_cons, Memory.bytes]
      | succ i =>
        rw [Memory.read_cons, if_neg (by show a ≠ _; omega)]
        have := ih h i
        rw [show a + (i + 1) = a + 1 + i by omega, this]
        simp [Memory.bytes]

/-- Reading a buffer filled up to an index: entry `i` is the `i`-th byte. -/
theorem Memory.read_of_filledTo {m : Memory} {n : Nat} (h : m.filledTo n) (i : Nat) : m.read i = m.bytes[i]? := by
  have := Memory.read_of_range' (k := 0) (n := n) (m := m) (by rw [h, List.range_eq_range']) i
  simpa using this

end Sys2Proof.Machine
end

