-- ==== Sys2Proof/Laws/State.lean ====
section
/-! SUPPORT. One lemma per field per named update of the state and of a unit, each true by rfl, so that no proof unfolds
a record update. -/

namespace Sys2Proof.Machine

@[simp] theorem takeInput_chk (s : State) : s.takeInput.chk = s.chk := rfl
@[simp] theorem takeInput_crc8 (s : State) : s.takeInput.crc8 = s.crc8 := rfl
@[simp] theorem takeInput_esc (s : State) : s.takeInput.esc = s.esc := rfl
@[simp] theorem takeInput_desc (s : State) : s.takeInput.desc = s.desc := rfl
@[simp] theorem takeInput_fr (s : State) : s.takeInput.fr = s.fr := rfl
@[simp] theorem takeInput_wr (s : State) : s.takeInput.wr = s.wr := rfl
@[simp] theorem takeInput_sys (s : State) : s.takeInput.sys = s.sys := rfl
@[simp] theorem takeInput_inputs (s : State) : s.takeInput.inputs = s.inputs.tail := rfl
@[simp] theorem takeInput_draws (s : State) : s.takeInput.draws = s.draws := rfl

@[simp] theorem endStep_chk (s : State) : s.endStep.chk = s.chk := rfl
@[simp] theorem endStep_crc8 (s : State) : s.endStep.crc8 = s.crc8 := rfl
@[simp] theorem endStep_esc (s : State) : s.endStep.esc = s.esc := rfl
@[simp] theorem endStep_desc (s : State) : s.endStep.desc = s.desc := rfl
@[simp] theorem endStep_fr (s : State) : s.endStep.fr = s.fr := rfl
@[simp] theorem endStep_wr (s : State) : s.endStep.wr = s.wr := rfl
@[simp] theorem endStep_sys (s : State) : s.endStep.sys = s.sys := rfl
@[simp] theorem endStep_inputs (s : State) : s.endStep.inputs = s.inputs := rfl
@[simp] theorem endStep_draws (s : State) : s.endStep.draws = s.draws + 1 := rfl

@[simp] theorem resetPin_chk (s : State) : s.resetPin.chk = State.reset.chk := rfl
@[simp] theorem resetPin_crc8 (s : State) : s.resetPin.crc8 = State.reset.crc8 := rfl
@[simp] theorem resetPin_esc (s : State) : s.resetPin.esc = State.reset.esc := rfl
@[simp] theorem resetPin_desc (s : State) : s.resetPin.desc = State.reset.desc := rfl
@[simp] theorem resetPin_fr (s : State) : s.resetPin.fr = State.reset.fr := rfl
@[simp] theorem resetPin_wr (s : State) : s.resetPin.wr = State.reset.wr := rfl
@[simp] theorem resetPin_sys (s : State) : s.resetPin.sys = State.reset.sys := rfl
@[simp] theorem resetPin_inputs (s : State) : s.resetPin.inputs = s.inputs := rfl
@[simp] theorem resetPin_draws (s : State) : s.resetPin.draws = s.draws := rfl

@[simp] theorem present_chk (s : State) (p : PortIn) : (s.present p).chk = s.chk := rfl
@[simp] theorem present_crc8 (s : State) (p : PortIn) : (s.present p).crc8 = s.crc8 := rfl
@[simp] theorem present_esc (s : State) (p : PortIn) : (s.present p).esc = s.esc := rfl
@[simp] theorem present_desc (s : State) (p : PortIn) : (s.present p).desc = s.desc := rfl
@[simp] theorem present_fr (s : State) (p : PortIn) : (s.present p).fr = s.fr := rfl
@[simp] theorem present_wr (s : State) (p : PortIn) : (s.present p).wr = s.wr := rfl
@[simp] theorem present_sys (s : State) (p : PortIn) : (s.present p).sys = s.sys := rfl
@[simp] theorem present_inputs (s : State) (p : PortIn) : (s.present p).inputs = p :: s.inputs := rfl
@[simp] theorem present_draws (s : State) (p : PortIn) : (s.present p).draws = s.draws := rfl

@[simp] theorem raiseProtocolError_state (c : FrCause) (f : FrUnit) : (raiseProtocolError c f).state = .protocolError := rfl
@[simp] theorem raiseProtocolError_cause (c : FrCause) (f : FrUnit) : (raiseProtocolError c f).cause = c := rfl
@[simp] theorem raiseProtocolError_pend (c : FrCause) (f : FrUnit) : (raiseProtocolError c f).pend = f.pend := rfl
@[simp] theorem raiseProtocolError_count (c : FrCause) (f : FrUnit) : (raiseProtocolError c f).count = f.count := rfl
@[simp] theorem raiseProtocolError_timer (c : FrCause) (f : FrUnit) : (raiseProtocolError c f).timer = f.timer := rfl
@[simp] theorem raiseProtocolError_buf (c : FrCause) (f : FrUnit) : (raiseProtocolError c f).buf = f.buf := rfl
@[simp] theorem raiseTimedOut_state (f : FrUnit) : (raiseTimedOut f).state = .timedOut := rfl
@[simp] theorem raiseTimedOut_cause (f : FrUnit) : (raiseTimedOut f).cause = f.cause := rfl
@[simp] theorem raiseTimedOut_pend (f : FrUnit) : (raiseTimedOut f).pend = f.pend := rfl
@[simp] theorem raiseTimedOut_count (f : FrUnit) : (raiseTimedOut f).count = f.count := rfl
@[simp] theorem raiseTimedOut_timer (f : FrUnit) : (raiseTimedOut f).timer = f.timer := rfl
@[simp] theorem raiseTimedOut_buf (f : FrUnit) : (raiseTimedOut f).buf = f.buf := rfl
@[simp] theorem raiseWr_state (e : WrState) (w : WrUnit) : (raiseWr e w).state = e := rfl
@[simp] theorem raiseWr_expect (e : WrState) (w : WrUnit) : (raiseWr e w).expect = w.expect := rfl
@[simp] theorem raiseWr_req (e : WrState) (w : WrUnit) : (raiseWr e w).req = w.req := rfl
@[simp] theorem raiseWr_raw (e : WrState) (w : WrUnit) : (raiseWr e w).raw = w.raw := rfl
@[simp] theorem raiseWr_phase (e : WrState) (w : WrUnit) : (raiseWr e w).phase = w.phase := rfl
@[simp] theorem raiseWr_d0 (e : WrState) (w : WrUnit) : (raiseWr e w).d0 = w.d0 := rfl
@[simp] theorem raiseWr_d1 (e : WrState) (w : WrUnit) : (raiseWr e w).d1 = w.d1 := rfl
@[simp] theorem raiseWr_count (e : WrState) (w : WrUnit) : (raiseWr e w).count = w.count := rfl
@[simp] theorem raiseWr_buf (e : WrState) (w : WrUnit) : (raiseWr e w).buf = w.buf := rfl
@[simp] theorem raiseIllegalOperation_illOp (y : SysUnit) : (raiseIllegalOperation y).illOp = true := rfl

@[simp] theorem frFresh_state : frFresh.state = .awaitHeader := rfl
@[simp] theorem frFresh_cause : frFresh.cause = .none := rfl
@[simp] theorem frFresh_pend : frFresh.pend = false := rfl
@[simp] theorem frFresh_count : frFresh.count = 0 := rfl
@[simp] theorem frFresh_timer : frFresh.timer = 0 := rfl
@[simp] theorem frFresh_buf : frFresh.buf = [] := rfl
@[simp] theorem wrFresh_state (e : WrState) (n : Fin (Config.wrBufCap + 1)) (r : Fin (Config.wrReqCap + 1)) : (wrFresh e n r).state = e := rfl
@[simp] theorem wrFresh_expect (e : WrState) (n : Fin (Config.wrBufCap + 1)) (r : Fin (Config.wrReqCap + 1)) : (wrFresh e n r).expect = n := rfl
@[simp] theorem wrFresh_req (e : WrState) (n : Fin (Config.wrBufCap + 1)) (r : Fin (Config.wrReqCap + 1)) : (wrFresh e n r).req = r := rfl
@[simp] theorem wrFresh_raw (e : WrState) (n : Fin (Config.wrBufCap + 1)) (r : Fin (Config.wrReqCap + 1)) : (wrFresh e n r).raw = 0 := rfl
@[simp] theorem wrFresh_phase (e : WrState) (n : Fin (Config.wrBufCap + 1)) (r : Fin (Config.wrReqCap + 1)) : (wrFresh e n r).phase = .first := rfl
@[simp] theorem wrFresh_d0 (e : WrState) (n : Fin (Config.wrBufCap + 1)) (r : Fin (Config.wrReqCap + 1)) : (wrFresh e n r).d0 = 0x00 := rfl
@[simp] theorem wrFresh_d1 (e : WrState) (n : Fin (Config.wrBufCap + 1)) (r : Fin (Config.wrReqCap + 1)) : (wrFresh e n r).d1 = 0x00 := rfl
@[simp] theorem wrFresh_count (e : WrState) (n : Fin (Config.wrBufCap + 1)) (r : Fin (Config.wrReqCap + 1)) : (wrFresh e n r).count = 0 := rfl
@[simp] theorem wrFresh_buf (e : WrState) (n : Fin (Config.wrBufCap + 1)) (r : Fin (Config.wrReqCap + 1)) : (wrFresh e n r).buf = [] := rfl
@[simp] theorem descFresh_pend : descFresh.pend = false := rfl
@[simp] theorem descFresh_valid : descFresh.valid = false := rfl
@[simp] theorem descFresh_err : descFresh.err = false := rfl
@[simp] theorem descFresh_out : descFresh.out = 0x00 := rfl

end Sys2Proof.Machine
end

