-- ==== Sys2Proof/Laws/Ops.lean ====
section
/-! SUPPORT. For each shared operation, one lemma that says once everything it can do. -/

namespace Sys2Proof.Machine

@[simp] theorem FrState.active_idle : FrState.idle.active = false := rfl
@[simp] theorem FrState.active_awaitHeader : FrState.awaitHeader.active = true := rfl
@[simp] theorem FrState.active_reading : FrState.reading.active = true := rfl
@[simp] theorem FrState.active_complete : FrState.complete.active = false := rfl
@[simp] theorem FrState.active_timedOut : FrState.timedOut.active = false := rfl
@[simp] theorem FrState.active_protocolError : FrState.protocolError.active = false := rfl

theorem FrState.active_eq_true {x : FrState} : x.active = true ↔ x = .awaitHeader ∨ x = .reading := by
  cases x <;> simp

theorem FrState.active_eq_false {x : FrState} :
    x.active = false ↔ x = .idle ∨ x = .complete ∨ x = .timedOut ∨ x = .protocolError := by
  cases x <;> simp

/-- `fr_count` is at most FR_BUF_CAP (R37 item 1). -/
theorem FrUnit.count_le (f : FrUnit) : f.count.val ≤ 45 := Nat.lt_succ_iff.1 f.count.isLt

/-- `wr_count` and `wr_expect` are at most WR_BUF_CAP (R37 item 1). -/
theorem WrUnit.count_le (w : WrUnit) : w.count.val ≤ 40 := Nat.lt_succ_iff.1 w.count.isLt
theorem WrUnit.expect_le (w : WrUnit) : w.expect.val ≤ 40 := Nat.lt_succ_iff.1 w.expect.isLt

/-- `wr_raw` and `wr_req` are at most 60 (R37 item 1). -/
theorem WrUnit.raw_le (w : WrUnit) : w.raw.val ≤ 60 := Nat.lt_succ_iff.1 w.raw.isLt
theorem WrUnit.req_le (w : WrUnit) : w.req.val ≤ 60 := Nat.lt_succ_iff.1 w.req.isLt

/-- A specified entry of `fr_buf` is the byte accumulated at that position, whatever the free draws are. -/
theorem frEntry_of_filledTo (d : Nat) {f : FrUnit} (h : f.buf.filledTo f.count.val) {i : Nat} (hi : i < f.count.val) :
    some (frEntry d f i) = f.buf.bytes[i]? := by
  have hl : i < f.buf.bytes.length := by
    rw [Memory.bytes_length, Memory.length_of_filledTo h]; exact hi
  rw [frEntry, if_pos hi, Memory.read_of_filledTo h, List.getElem?_eq_getElem hl]
  rfl

/-- An entry of `fr_buf` at or beyond `fr_count` is a free draw (U5). -/
theorem frEntry_of_le (d : Nat) {f : FrUnit} {i : Nat} (hi : f.count.val ≤ i) :
    frEntry d f i = Config.freeByte d (0x40 + i) := if_neg (Nat.not_lt.2 hi)

/-- The first `n` specified entries of `fr_buf` are the first `n` accumulated bytes. -/
theorem frBytes_of_filledTo (d : Nat) {f : FrUnit} (h : f.buf.filledTo f.count.val) {n : Nat} (hn : n ≤ f.count.val) :
    frBytes d f n = f.buf.bytes.take n := by
  apply List.ext_getElem?
  intro i
  rw [frBytes, List.getElem?_map]
  by_cases hi : i < n
  · rw [List.getElem?_range hi, List.getElem?_take_of_lt hi]
    exact frEntry_of_filledTo d h (Nat.lt_of_lt_of_le hi hn)
  · rw [List.getElem?_eq_none (by simpa using hi), List.getElem?_eq_none]
    · rfl
    · rw [List.length_take]; omega

/-- A specified entry of `wr_buf` is the byte collected at that position, whatever the free draws are. -/
theorem wrEntry_of_filledTo (d : Nat) {w : WrUnit} (h : w.buf.filledTo w.count.val) {i : Nat} (hi : i < w.count.val) :
    some (wrEntry d w i) = w.buf.bytes[i]? := by
  have hl : i < w.buf.bytes.length := by
    rw [Memory.bytes_length, Memory.length_of_filledTo h]; exact hi
  rw [wrEntry, if_pos hi, Memory.read_of_filledTo h, List.getElem?_eq_getElem hl]
  rfl

/-- An entry of `wr_buf` at or beyond `wr_count` is a free draw (U5). -/
theorem wrEntry_of_le (d : Nat) {w : WrUnit} {i : Nat} (hi : w.count.val ≤ i) :
    wrEntry d w i = Config.freeByte d (0x80 + i) := if_neg (Nat.not_lt.2 hi)

/-- Everything `store(v)` can do (R150, R151). -/
theorem frStore_cases (v : Byte) (f : FrUnit) :
    (∃ h : f.count.val + 1 < Config.frBufCap + 1,
      frStore v f = { f with buf := f.buf.write f.count.val v, count := ⟨f.count.val + 1, h⟩ }) ∨
    (f.count.val = Config.frBufCap ∧ frStore v f = raiseProtocolError .overflow f) := by
  have := f.count_le
  unfold frStore
  split
  · exact .inl ⟨by omega, rfl⟩
  · exact .inr ⟨by simp at *; omega, rfl⟩

/-- Everything the end-of-frame checks can do (R154). -/
theorem frFinalise_cases (d : Nat) (f : FrUnit) :
    (∃ c, (c = .tooShort ∨ c = .lenMismatch ∨ c = .chkMismatch) ∧ frFinalise d f = raiseProtocolError c f) ∨
    (frFinalise d f = { f with state := .complete } ∧ 5 ≤ f.count.val ∧ f.count.val = (frEntry d f 3).toNat + 5 ∧
      chk8 (frBytes d f (f.count.val - 1)) = frEntry d f (f.count.val - 1)) := by
  unfold frFinalise
  split
  · exact .inl ⟨_, .inl rfl, rfl⟩
  · split
    · exact .inl ⟨_, .inr (.inl rfl), rfl⟩
    · split
      · exact .inl ⟨_, .inr (.inr rfl), rfl⟩
      · rename_i h1 h2 h3
        exact .inr ⟨rfl, by omega, by omega, not_not.1 h3⟩

/-! What `store(v)` and the end-of-frame checks leave alone (R142, R150, R154). -/

@[simp] theorem frStore_timer (v : Byte) (f : FrUnit) : (frStore v f).timer = f.timer := by
  rcases frStore_cases v f with ⟨h, e⟩ | ⟨-, e⟩ <;> simp [e]

@[simp] theorem frStore_pend (v : Byte) (f : FrUnit) : (frStore v f).pend = f.pend := by
  rcases frStore_cases v f with ⟨h, e⟩ | ⟨-, e⟩ <;> simp [e]

@[simp] theorem frFinalise_timer (d : Nat) (f : FrUnit) : (frFinalise d f).timer = f.timer := by
  rcases frFinalise_cases d f with ⟨c, -, e⟩ | ⟨e, -⟩ <;> simp [e]

@[simp] theorem frFinalise_pend (d : Nat) (f : FrUnit) : (frFinalise d f).pend = f.pend := by
  rcases frFinalise_cases d f with ⟨c, -, e⟩ | ⟨e, -⟩ <;> simp [e]

@[simp] theorem frFinalise_count (d : Nat) (f : FrUnit) : (frFinalise d f).count = f.count := by
  rcases frFinalise_cases d f with ⟨c, -, e⟩ | ⟨e, -⟩ <;> simp [e]

@[simp] theorem frFinalise_buf (d : Nat) (f : FrUnit) : (frFinalise d f).buf = f.buf := by
  rcases frFinalise_cases d f with ⟨c, -, e⟩ | ⟨e, -⟩ <;> simp [e]

/-- The escape table is one-to-one: a replacement byte maps back to what it replaces (R15, R126). -/
theorem unstuffMap_stuffMap {b x : Byte} (h : stuffMap b = some x) : unstuffMap x = some b := by
  unfold stuffMap at h
  split at h
  · cases h; subst_vars; rfl
  · split at h
    · cases h; subst_vars; rfl
    · split at h
      · cases h; subst_vars; rfl
      · split at h
        · cases h; subst_vars; rfl
        · cases h

/-- The bytes that are not reserved. -/
theorem stuffMap_eq_none {b : Byte} : stuffMap b = none ↔ b ≠ 0x11 ∧ b ≠ 0x13 ∧ b ≠ 0x7D ∧ b ≠ 0x7E := by
  unfold stuffMap
  split
  · simp_all
  · split
    · simp_all
    · split
      · simp_all
      · split <;> simp_all

/-- The bytes that are no replacement. -/
theorem unstuffMap_eq_none {b : Byte} : unstuffMap b = none ↔ b ≠ 0x31 ∧ b ≠ 0x33 ∧ b ≠ 0x5D ∧ b ≠ 0x5E := by
  unfold unstuffMap
  split
  · simp_all
  · split
    · simp_all
    · split
      · simp_all
      · split <;> simp_all

/-- Everything an argument of WR.START can stand for (R172). -/
theorem expectedLength_eq_some {n : Byte} {e : Fin (Config.wrBufCap + 1)} :
    expectedLength n = some e ↔ n.toNat = e.val := by
  unfold expectedLength
  split
  · simp [Fin.ext_iff]
  · simp only [reduceCtorEq, false_iff]
    intro h
    exact absurd e.isLt (h ▸ by assumption)

theorem expectedLength_eq_none {n : Byte} : expectedLength n = none ↔ 40 < n.toNat := by
  have : Config.wrBufCap = 40 := rfl
  unfold expectedLength
  split
  · simp only [reduceCtorEq, false_iff]; omega
  · simp only [true_iff]; omega

@[simp] theorem requestCount_val (n : Fin (Config.wrBufCap + 1)) : (requestCount n).val = n.val / 2 * 3 := rfl

/-- Everything appending a group can do (R177). -/
theorem wrAppend_cases (w : WrUnit) :
    (∃ h : w.count.val + 2 < Config.wrBufCap + 1, wrAppend w = some { w with
      buf := (w.buf.write w.count.val w.d0).write (w.count.val + 1) w.d1, count := ⟨w.count.val + 2, h⟩ }) ∨
    (38 < w.count.val ∧ wrAppend w = none) := by
  unfold wrAppend
  split
  · exact .inl ⟨by assumption, rfl⟩
  · exact .inr ⟨by simp at *; omega, rfl⟩

/-- WR.BYTE outside READING changes nothing (R181). -/
theorem wrByte_of_not_reading (b : Byte) {w : WrUnit} (h : w.state ≠ .reading) : wrByte b w = some w := by
  unfold wrByte
  cases hs : w.state <;> simp_all

theorem wrByte_of_reading (b : Byte) {w : WrUnit} (h : w.state = .reading) : wrByte b w = wrReadingByte b w := by
  unfold wrByte
  rw [h]

end Sys2Proof.Machine
end

