-- ==== Sys2Proof/Laws/Exec.lean ====
section
/-! SUPPORT. The meaning of each operation as one equation of `exec`, and one step of the block by its action. -/

namespace Sys2Proof.Machine

@[simp] theorem exec_nop (s : State) : exec .nop s = .next s := rfl
@[simp] theorem exec_chkClr (s : State) : exec .chkClr s = .next { s with chk := { acc := 0x00 } } := rfl
@[simp] theorem exec_chkAdd (b : Byte) (s : State) :
    exec (.chkAdd b) s = .next { s with chk := { acc := s.chk.acc + b } } := rfl
@[simp] theorem exec_crc8Init (s : State) : exec .crc8Init s = .next { s with crc8 := { reg := crc8Initial } } := rfl
@[simp] theorem exec_crc8Upd (b : Byte) (s : State) :
    exec (.crc8Upd b) s = .next { s with crc8 := { reg := crc8Step s.crc8.reg b } } := rfl
@[simp] theorem exec_escPut (b : Byte) (s : State) : exec (.escPut b) s = .next { s with esc := escPut b } := rfl
@[simp] theorem exec_descClr (s : State) : exec .descClr s = .next { s with desc := descFresh } := rfl
@[simp] theorem exec_descPut (b : Byte) (s : State) :
    exec (.descPut b) s = .next { s with desc := descPut b s.desc } := rfl
@[simp] theorem exec_frStart (s : State) : exec .frStart s = .next { s with fr := frStart s.fr } := rfl
@[simp] theorem exec_frByte (b : Byte) (s : State) :
    exec (.frByte b) s = .next { s with fr := frByte s.draws b s.fr } := rfl
@[simp] theorem exec_frTick (s : State) : exec .frTick s = .next { s with fr := frTick s.fr } := rfl
@[simp] theorem exec_wrEnd (s : State) : exec .wrEnd s = .next { s with wr := wrEnd s.wr } := rfl
@[simp] theorem exec_reservedE (s : State) :
    exec .reservedE s = .next { s with sys := raiseIllegalOperation s.sys } := rfl
@[simp] theorem exec_reservedF (s : State) :
    exec .reservedF s = .next { s with sys := raiseIllegalOperation s.sys } := rfl

theorem exec_wrStart_of_reading (n : Byte) {s : State} (h : s.wr.state = .reading) :
    exec (.wrStart n) s = .next s := by
  show execWrStart n s = _
  rw [execWrStart, if_pos h]

theorem exec_wrStart_of_length {n : Byte} {e : Fin (Config.wrBufCap + 1)} {s : State} (h : s.wr.state ≠ .reading)
    (he : expectedLength n = some e) : exec (.wrStart n) s = .next { s with wr := wrBegin e } := by
  show execWrStart n s = _
  rw [execWrStart, if_neg h, he]

theorem exec_wrStart_of_none {n : Byte} {s : State} (h : s.wr.state ≠ .reading) (he : expectedLength n = none) :
    exec (.wrStart n) s = .next { s with sys := raiseIllegalOperation s.sys } := by
  show execWrStart n s = _
  rw [execWrStart, if_neg h, he]

theorem exec_wrByte_of_some {b : Byte} {s : State} {w : WrUnit} (h : wrByte b s.wr = some w) :
    exec (.wrByte b) s = .next { s with wr := w } := by
  show execWrByte b s = _
  rw [execWrByte, h]

theorem exec_wrByte_of_none {b : Byte} {s : State} (h : wrByte b s.wr = none) :
    exec (.wrByte b) s = .fault .wrRangeExceeded := by
  show execWrByte b s = _
  rw [execWrByte, h]

/-- Everything WR.START can do: nothing, a fresh read, or the flag. -/
theorem exec_wrStart_cases (n : Byte) (s : State) :
    (s.wr.state = .reading ∧ exec (.wrStart n) s = .next s) ∨
    (s.wr.state ≠ .reading ∧ ∃ e, expectedLength n = some e ∧ exec (.wrStart n) s = .next { s with wr := wrBegin e }) ∨
    (s.wr.state ≠ .reading ∧ expectedLength n = none ∧
      exec (.wrStart n) s = .next { s with sys := raiseIllegalOperation s.sys }) := by
  by_cases h : s.wr.state = .reading
  · exact .inl ⟨h, exec_wrStart_of_reading n h⟩
  · cases he : expectedLength n with
    | some e => exact .inr (.inl ⟨h, e, rfl, exec_wrStart_of_length h he⟩)
    | none => exact .inr (.inr ⟨h, rfl, exec_wrStart_of_none h he⟩)

/-- Everything WR.BYTE can do: a new state of WR, or the model's stop. -/
theorem exec_wrByte_cases (b : Byte) (s : State) :
    (∃ w, wrByte b s.wr = some w ∧ exec (.wrByte b) s = .next { s with wr := w }) ∨
    (wrByte b s.wr = none ∧ exec (.wrByte b) s = .fault .wrRangeExceeded) := by
  cases h : wrByte b s.wr with
  | some w => exact .inl ⟨w, rfl, exec_wrByte_of_some h⟩
  | none => exact .inr ⟨rfl, exec_wrByte_of_none h⟩

/-- One step by its action. -/
theorem step_reset {s : State} (h : s.action = .reset) : step s = .next s.takeInput.resetPin.endStep := by
  rw [step, h]

theorem step_nothing {s : State} (h : s.action = .nothing) : step s = .next s.takeInput.endStep := by
  rw [step, h]

theorem step_execute {s t : State} {i : Instr} (h : s.action = .execute i) (ht : exec i s.takeInput = .next t) :
    step s = .next t.endStep := by
  simp only [step, h, ht]

/-- Everything a step that answers a next state can have done. -/
theorem step_cases {s t : State} (h : step s = .next t) :
    (s.action = .reset ∧ t = s.takeInput.resetPin.endStep) ∨
    (s.action = .nothing ∧ t = s.takeInput.endStep) ∨
    (∃ i u, s.action = .execute i ∧ exec i s.takeInput = .next u ∧ t = u.endStep) := by
  cases ha : s.action with
  | reset => rw [step_reset ha] at h; cases h; exact .inl ⟨rfl, rfl⟩
  | nothing => rw [step_nothing ha] at h; cases h; exact .inr (.inl ⟨rfl, rfl⟩)
  | execute i =>
    cases hu : exec i s.takeInput with
    | next u => rw [step_execute ha hu] at h; cases h; exact .inr (.inr ⟨i, u, rfl, hu, rfl⟩)
    | fault r => simp [step, ha, hu] at h
    | refused r => simp [step, ha, hu] at h

/-- `exec` never refuses, and stops only where WR.BYTE would leave a range (log 7). -/
theorem exec_ne_refused (i : Instr) (s : State) (r : Refusal) : exec i s ≠ .refused r := by
  cases i <;> try simp
  case wrStart n => rcases exec_wrStart_cases n s with ⟨-, e⟩ | ⟨-, _, -, e⟩ | ⟨-, -, e⟩ <;> simp [e]
  case wrByte b => rcases exec_wrByte_cases b s with ⟨w, -, e⟩ | ⟨-, e⟩ <;> simp [e]

end Sys2Proof.Machine
end

