-- ==== Sys2Proof/Laws/PerInstr.lean ====
section
/-! SUPPORT. Facts about each operation as syntax, one lemma per constructor: the two fields of its encoding are its
opcode and its argument byte (spec/30_encoding.md R80, R83). -/

namespace Sys2Proof.Laws.EncodedFields

/-- The fields of the encoded operation are its opcode (R82) and its argument byte (R83). -/
def Statement (i : Instr) : Prop := opcOf (encode i) = i.opcode ∧ argOf (encode i) = i.argByte

theorem append_fields (o : Opcode) (a : Byte) : opcOf (o ++ a) = o ∧ argOf (o ++ a) = a := by
  constructor
  · ext i hi
    simp only [opcOf, BitVec.getElem_extractLsb', BitVec.getLsbD_append]
    rw [if_neg (by omega), show 8 + i - 8 = i by omega, BitVec.getLsbD_eq_getElem hi]
  · ext i hi
    simp only [argOf, BitVec.getElem_extractLsb', BitVec.getLsbD_append]
    rw [if_pos (by omega), Nat.zero_add, BitVec.getLsbD_eq_getElem hi]

theorem nop : Statement .nop := append_fields _ _
theorem chkClr : Statement .chkClr := append_fields _ _
theorem chkAdd (b : Byte) : Statement (.chkAdd b) := append_fields _ _
theorem crc8Init : Statement .crc8Init := append_fields _ _
theorem crc8Upd (b : Byte) : Statement (.crc8Upd b) := append_fields _ _
theorem escPut (b : Byte) : Statement (.escPut b) := append_fields _ _
theorem descClr : Statement .descClr := append_fields _ _
theorem descPut (b : Byte) : Statement (.descPut b) := append_fields _ _
theorem frStart : Statement .frStart := append_fields _ _
theorem frByte (b : Byte) : Statement (.frByte b) := append_fields _ _
theorem frTick : Statement .frTick := append_fields _ _
theorem wrStart (b : Byte) : Statement (.wrStart b) := append_fields _ _
theorem wrByte (b : Byte) : Statement (.wrByte b) := append_fields _ _
theorem wrEnd : Statement .wrEnd := append_fields _ _
theorem reservedE : Statement .reservedE := append_fields _ _
theorem reservedF : Statement .reservedF := append_fields _ _

end Sys2Proof.Laws.EncodedFields
end

