-- ==== Sys2Proof/Tests/Slice0.lean ====
section
/-! SUPPORT. The model's own tests. Expected values are those of spec/95_test_vectors.md (the vector's name stands in the
docstring) or of the rule named; none is taken from the model. The witness theorems show for each statement with
hypotheses a concrete state and operands that meet them. -/

namespace Sys2Proof.Tests

open Sys2Proof Sys2Proof.Machine

/-- The outcome is a next state, and the test holds of it. -/
def nextIs (o : Host.Outcome State Fault Refusal) (p : State → Bool) : Bool :=
  match o with
  | .next t => p t
  | .fault _ | .refused _ => false

/-- A buffer holding these bytes from index 0. -/
def bufOf (bs : List Byte) : Memory := bs.zipIdx.map (fun x => (x.2, x.1))

/-- The reset state with FR as given. -/
def frAt (st : FrState) (cause : FrCause) (pend : Bool) (timer : Ticks) (bs : List Byte) : State :=
  { State.reset with fr :=
    { state := st, cause := cause, pend := pend, count := Fin.ofNat _ bs.length, timer := timer, buf := bufOf bs } }

/-- FR reading a frame, with these bytes accumulated. -/
def frReadingAt (bs : List Byte) : State := frAt .reading .none false 0 bs

/-- The reset state with WR as given, after `WR.START n`. -/
def wrAt (st : WrState) (n raw : Nat) (ph : WrPhase) (d0 d1 : Byte) (bs : List Byte) : State :=
  { State.reset with wr :=
    { state := st, expect := Fin.ofNat _ n, req := Fin.ofNat _ (n / 2 * 3), raw := Fin.ofNat _ raw, phase := ph,
      d0 := d0, d1 := d1, count := Fin.ofNat _ bs.length, buf := bufOf bs } }

/-- The frame of vector F1, accumulated. -/
def f1Bytes : List Byte := [0x00, 0x00, 0x00, 0x00, 0xFF]

/-! ## Decoding, encoding and well-formedness -/

/-- R82: one word of each defined opcode and the two reserved ones, written out bit by bit. -/
theorem test_decode_words :
    decode 0b0000_00000000 = .nop ∧ decode 0b0001_00000000 = .chkClr ∧ decode 0b0010_00000011 = .chkAdd 0x03 ∧
    decode 0b0011_00000000 = .crc8Init ∧ decode 0b0100_00001001 = .crc8Upd 0x09 ∧
    decode 0b0101_01111110 = .escPut 0x7E ∧ decode 0b0110_00000000 = .descClr ∧
    decode 0b0111_01111101 = .descPut 0x7D ∧ decode 0b1000_00000000 = .frStart ∧
    decode 0b1001_01111110 = .frByte 0x7E ∧ decode 0b1010_00000000 = .frTick ∧
    decode 0b1011_00101000 = .wrStart 40 ∧ decode 0b1100_11101000 = .wrByte 0xE8 ∧
    decode 0b1101_00000000 = .wrEnd ∧ decode 0b1110_00000000 = .reservedE ∧ decode 0b1111_01011010 = .reservedF := by
  decide

/-- S8 and S9: the argument bits of an operation without an argument are ignored. -/
theorem test_decode_ignored_argument :
    decode 0x1FF = .chkClr ∧ decode 0x8FF = .frStart ∧ decode 0xAFF = .frTick ∧ decode 0xDFF = .wrEnd ∧
    decode 0x3FF = .crc8Init ∧ decode 0x6FF = .descClr := by decide

/-- R83: the examples. -/
theorem test_encode_words :
    encode (.frByte 0x7E) = 0x97E ∧ encode (.chkAdd 0x03) = 0x203 ∧ encode (.wrStart 40) = 0xB28 ∧
    encode .frStart = 0x800 ∧ encode .frTick = 0xA00 ∧ encode .nop = 0x000 := by decide

/-- The table's numbering: the row's 12 bits in 16, or in 12; a number wider than the port is rejected by name. -/
theorem test_decode_table_word :
    decodeTableWord 16 0x97E = some (.frByte 0x7E) ∧ decodeTableWord 12 0xB28 = some (.wrStart 40) ∧
    decodeTableWord 16 0x1000 = none ∧
    (match decodeNumber 16 0x1000 with | .ok _ => false | .error r => r = .widerThanOperationWord) = true := by decide

/-- R88: the reserved opcodes are no well-formed operations, each defined one is. -/
theorem test_wf_reserved : Instr.wf .reservedE = false ∧ Instr.wf .reservedF = false ∧ Instr.wf (.wrStart 255) = true := by
  decide

/-- R92: an argument is missing. -/
theorem test_wf_argument_missing : Statement.wf { mnemonic := .chkAdd, arg := none } = false := by decide

/-- R92: an argument is superfluous. -/
theorem test_wf_argument_superfluous : Statement.wf { mnemonic := .frTick, arg := some 0 } = false := by decide

/-- R92: an argument is no byte; 255 is the largest. -/
theorem test_wf_argument_range :
    Statement.wf { mnemonic := .wrByte, arg := some 256 } = false ∧
    Statement.wf { mnemonic := .wrByte, arg := some 255 } = true := by decide

/-- R92, R93: statements and pseudo-operations as text. -/
theorem test_assemble :
    assemble "FR.BYTE 0x7E; WR.START 40 # start" = some [PortIn.ofWord 0x97E, PortIn.ofWord 0xB28] ∧
    assemble "CRC8.WORD 0xBE, 0xEF" = some [PortIn.ofWord 0x300, PortIn.ofWord 0x4BE, PortIn.ofWord 0x4EF] ∧
    assemble "RD FR_BUF[4]" = some [PortIn.ofRead 0x44] := by decide +kernel

/-- Log 14, the model's choices: leading zeros, and an address written as a byte. -/
theorem test_assemble_choices :
    assemble "FR.BYTE 007" = some [PortIn.ofWord 0x907] ∧ assemble "RD 0x11" = some [PortIn.ofRead 0x11] := by
  decide +kernel

/-- R92, the grammar of a line: empty lines and comments are no step, and there is no empty statement. -/
theorem test_assemble_lines :
    assemble "# none\n\n NOP ; NOP # two\n" = some [PortIn.ofWord 0x000, PortIn.ofWord 0x000] ∧
    assemble "NOP;" = none ∧ assemble ";" = none ∧ assemble "NOP;;NOP" = none := by decide +kernel

/-- R92: an ill-formed statement is no program. -/
theorem test_assemble_rejects :
    assemble "CHK.ADD 256" = none ∧ assemble "NOP 1" = none ∧ assemble "FR.BYTE" = none ∧ assemble "FOO" = none := by
  decide +kernel

/-! ## The pure functions and the wire formats -/

/-- Vectors K1, K4, K5, K7 and K12 of section 2.1. -/
theorem test_chk8 :
    chk8 [] = 0xFF ∧ chk8 [0xFF, 0x01] = 0xFF ∧ chk8 [0x00, 0x00, 0x02, 0x01, 0x03] = 0xF9 ∧
    chk8 [0xFF, 0xFF, 0xFF] = 0x02 ∧ chk8 [0x00, 0x00, 0x02, 0x01, 0x03, 0xF9] = 0x00 := by decide

/-- The word values of section 2.2. -/
theorem test_crc8_words :
    crc8Word 0x00 0x00 = 0x81 ∧ crc8Word 0x00 0x01 = 0xB0 ∧ crc8Word 0x01 0x00 = 0x75 ∧ crc8Word 0xFF 0xFF = 0xAC ∧
    crc8Word 0xBE 0xEF = 0x92 ∧ crc8Word 0x12 0x34 = 0x37 ∧ crc8Word 0x3F 0x80 = 0xD0 ∧ crc8Word 0x7D 0x7E = 0x1D ∧
    crc8Word 0xFF 0x00 = 0x00 ∧ crc8Word 0x00 0xFF = 0x2D ∧ crc8Word 0xAA 0x55 = 0x1B ∧ crc8Word 0x3A 0x80 = 0xA7 := by
  decide +kernel

/-- Section 2.2: the nine characters "123456789", and the residue of the word BE EF. -/
theorem test_crc8_check_value :
    ([0x31, 0x32, 0x33, 0x34, 0x35, 0x36, 0x37, 0x38, 0x39] : List Byte).foldl crc8Step 0xFF = 0xF7 ∧
    ([0xBE, 0xEF, 0x92] : List Byte).foldl crc8Step 0xFF = 0x00 := by decide +kernel

/-- Section 2.3 and vector D7: stuffing, and an unstuffing that fails. -/
theorem test_stuff :
    stuff [0x00, 0x7E, 0x7D, 0x42, 0x11, 0x13, 0xFF] =
      [0x00, 0x7D, 0x5E, 0x7D, 0x5D, 0x42, 0x7D, 0x31, 0x7D, 0x33, 0xFF] ∧
    unstuff [0x7D, 0x00, 0x42] = none ∧ unstuff [0x7D] = none ∧ unstuff [0x31, 0x7D, 0x33] = some [0x31, 0x13] := by decide

/-- R77 and programs P1b and P4: the request of the source, a stuffed request, a reply. -/
theorem test_wire_frames :
    requestWire 0x00 0x00 [0x01, 0x03] = [0x7E, 0x00, 0x00, 0x02, 0x01, 0x03, 0xF9, 0x7E] ∧
    requestWire 0x00 0x80 [0x00, 0x00, 0x7E, 0x11] =
      [0x7E, 0x00, 0x80, 0x04, 0x00, 0x00, 0x7D, 0x5E, 0x7D, 0x31, 0xEC, 0x7E] ∧
    replyWire 0x00 0xD0 0x00 [0x7E, 0x7D, 0x11] =
      [0x7E, 0x00, 0xD0, 0x00, 0x03, 0x7D, 0x5E, 0x7D, 0x5D, 0x7D, 0x31, 0x20, 0x7E] := by decide

/-- Program P6: the data part of a write of 0x00093A80. -/
theorem test_i2c_write : i2cReply (be32Words 0x00093A80) = [0x00, 0x09, 0x09, 0x3A, 0x80, 0xA7] := by decide +kernel

/-! ## One step of each operation -/

/-- S3. -/
theorem test_nop : nextIs (exec .nop (frReadingAt f1Bytes)) (fun t => t = frReadingAt f1Bytes) = true := by decide

/-- Section 2.1: `chk_acc` = 5A, CHK.CLR gives 00. -/
theorem test_chkClr :
    nextIs (exec .chkClr { State.reset with chk := ⟨0x5A⟩ }) (fun t => t.chk.acc = 0x00 ∧ memRead t 0x01 = 0xFF) = true := by
  decide

/-- Section 2.1: `chk_acc` = F0, CHK.ADD 0x20 gives 10, CHK_OUT EF. -/
theorem test_chkAdd_wraps :
    nextIs (exec (.chkAdd 0x20) { State.reset with chk := ⟨0xF0⟩ })
      (fun t => t.chk.acc = 0x10 ∧ memRead t 0x01 = 0xEF) = true := by decide

/-- R110. -/
theorem test_crc8Init : nextIs (exec .crc8Init { State.reset with crc8 := ⟨0x0C⟩ }) (fun t => t.crc8.reg = 0xFF) = true := by
  decide

/-- Section 2.2: FF, BE gives 0C; 00, 80 gives 7A. -/
theorem test_crc8Upd :
    nextIs (exec (.crc8Upd 0xBE) State.reset) (fun t => t.crc8.reg = 0x0C) = true ∧
    nextIs (exec (.crc8Upd 0x80) { State.reset with crc8 := ⟨0x00⟩ }) (fun t => t.crc8.reg = 0x7A) = true := by
  decide +kernel

/-- E7, and E8: a replacement value is not reserved. -/
theorem test_escPut :
    nextIs (exec (.escPut 0x7E) State.reset) (fun t => t.esc = ⟨0x7D, 0x5E, 2⟩) = true ∧
    nextIs (exec (.escPut 0x31) State.reset) (fun t => t.esc = ⟨0x31, 0x00, 1⟩) = true := by decide

/-- E13: ESC_OUT1 is forced back to 00. -/
theorem test_escPut_clears_out1 :
    nextIs (exec (.escPut 0x42) { State.reset with esc := ⟨0x7D, 0x5E, 2⟩ }) (fun t => t.esc = ⟨0x42, 0x00, 1⟩) = true := by
  decide

/-- D10: the clear after an error. -/
theorem test_descClr :
    nextIs (exec .descClr { State.reset with desc := ⟨false, false, true, 0x42⟩ })
      (fun t => memRead t 0x07 = 0x00 ∧ memRead t 0x08 = 0x00) = true := by decide

/-- D2 and D3: a replacement byte after a marker; the marker itself keeps DESC_OUT. -/
theorem test_descPut :
    nextIs (exec (.descPut 0x5E) { State.reset with desc := ⟨true, false, false, 0x00⟩ })
      (fun t => memRead t 0x07 = 0x02 ∧ memRead t 0x08 = 0x7E) = true ∧
    nextIs (exec (.descPut 0x7D) { State.reset with desc := ⟨false, true, false, 0x11⟩ })
      (fun t => memRead t 0x07 = 0x01 ∧ memRead t 0x08 = 0x11) = true := by decide

/-- D6 and D7: an unmapped byte after a marker, and nothing after that. -/
theorem test_descPut_error :
    nextIs (exec (.descPut 0x7E) { State.reset with desc := ⟨true, false, false, 0x00⟩ })
      (fun t => memRead t 0x07 = 0x04 ∧ memRead t 0x08 = 0x00) = true ∧
    nextIs (exec (.descPut 0x42) { State.reset with desc := ⟨false, false, true, 0x00⟩ })
      (fun t => memRead t 0x07 = 0x04 ∧ memRead t 0x08 = 0x00) = true := by decide

/-- F43: from a terminal state. -/
theorem test_frStart :
    nextIs (exec .frStart (frAt .complete .none false 12 f1Bytes))
      (fun t => memRead t 0x10 = 0x01 ∧ t.fr.count = 0 ∧ t.fr.timer = 0) = true := by decide

/-- F44: ignored in an active state. -/
theorem test_frStart_ignored :
    nextIs (exec .frStart (frAt .reading .none false 1 [])) (fun t => t = frAt .reading .none false 1 []) = true := by decide

/-- F1, F17, F19, F5, F21: the closing header on a good frame, a bad checksum, a bad length, nothing, four bytes. -/
theorem test_frByte_closes :
    nextIs (exec (.frByte 0x7E) (frReadingAt f1Bytes)) (fun t => memRead t 0x10 = 0x03 ∧ memRead t 0x18 = 0xFF) = true ∧
    nextIs (exec (.frByte 0x7E) (frReadingAt [0x00, 0x00, 0x00, 0x00, 0xFE])) (fun t => memRead t 0x10 = 0x45) = true ∧
    nextIs (exec (.frByte 0x7E) (frReadingAt [0x00, 0x00, 0x00, 0x01, 0xFE])) (fun t => memRead t 0x10 = 0x55) = true ∧
    nextIs (exec (.frByte 0x7E) (frReadingAt [])) (fun t => memRead t 0x10 = 0x35) = true ∧
    nextIs (exec (.frByte 0x7E) (frReadingAt [0x00, 0x00, 0x00, 0x00])) (fun t => memRead t 0x10 = 0x55) = true := by
  decide +kernel

/-- F3, F23, F24, F26, F28, F29: the first byte, a header after a marker, an unmapped byte after a marker, the 46th byte,
and the two with a full buffer after a marker. -/
theorem test_frByte_errors :
    nextIs (exec (.frByte 0x00) (frAt .awaitHeader .none false 0 [])) (fun t => memRead t 0x10 = 0x15) = true ∧
    nextIs (exec (.frByte 0x7E) (frAt .reading .none true 0 [0x00])) (fun t => memRead t 0x10 = 0x25) = true ∧
    nextIs (exec (.frByte 0x00) (frAt .reading .none true 0 [0x00])) (fun t => memRead t 0x10 = 0x25) = true ∧
    nextIs (exec (.frByte 0xAA) (frReadingAt (List.replicate 45 0xAA)))
      (fun t => memRead t 0x10 = 0x65 ∧ memRead t 0x11 = 45) = true ∧
    nextIs (exec (.frByte 0x5E) (frAt .reading .none true 0 (List.replicate 45 0xAA))) (fun t => memRead t 0x10 = 0x65) = true ∧
    nextIs (exec (.frByte 0x00) (frAt .reading .none true 0 (List.replicate 45 0xAA))) (fun t => memRead t 0x10 = 0x25) = true := by
  decide +kernel

/-- R162's example, F31 and F34: tick 200 keeps the attempt, tick 201 ends it, also while a byte is pending. -/
theorem test_frTick :
    nextIs (exec .frTick (frAt .reading .none false 199 [])) (fun t => memRead t 0x10 = 0x02 ∧ t.fr.timer = 200) = true ∧
    nextIs (exec .frTick (frAt .awaitHeader .none false 200 [])) (fun t => memRead t 0x10 = 0x04 ∧ t.fr.timer = 201) = true ∧
    nextIs (exec .frTick (frAt .reading .none true 200 [])) (fun t => memRead t 0x10 = 0x0C ∧ t.fr.timer = 201) = true := by
  decide

/-- F36, F41: ignored where no attempt runs. -/
theorem test_frTick_ignored :
    nextIs (exec .frTick (frAt .timedOut .none false 201 [])) (fun t => t = frAt .timedOut .none false 201 []) = true ∧
    nextIs (exec .frTick State.reset) (fun t => t = State.reset) = true := by decide

/-- R170's examples, W10: 40 requests 60 raw bytes, 5 requests 6, 1 ends at once. -/
theorem test_wrStart :
    nextIs (exec (.wrStart 40) State.reset) (fun t => memRead t 0x20 = 0x01 ∧ memRead t 0x22 = 60) = true ∧
    nextIs (exec (.wrStart 5) State.reset) (fun t => memRead t 0x20 = 0x01 ∧ memRead t 0x22 = 6) = true ∧
    nextIs (exec (.wrStart 1) State.reset) (fun t => memRead t 0x20 = 0x04 ∧ memRead t 0x21 = 1) = true := by decide

/-- W13 and W22: 41 is refused with the flag, and in READING ignored without it. -/
theorem test_wrStart_refused :
    nextIs (exec (.wrStart 41) State.reset) (fun t => memRead t 0x09 = 0x01 ∧ t.wr = State.reset.wr) = true ∧
    nextIs (exec (.wrStart 50) (wrAt .reading 4 3 .first 0x01 0x02 [0x01, 0x02])) (fun t => memRead t 0x09 = 0x00) = true := by
  decide

/-- W1, W2, W11: the CRC byte ends the read, or goes on, or ends it short. -/
theorem test_wrByte_group :
    nextIs (exec (.wrByte 0x92) (wrAt .reading 2 2 .crc 0xBE 0xEF [])) (fun t => memRead t 0x20 = 0x02 ∧
      memRead t 0x80 = 0xBE ∧ memRead t 0x81 = 0xEF ∧ memRead t 0x23 = 3) = true ∧
    nextIs (exec (.wrByte 0xB0) (wrAt .reading 4 2 .crc 0x00 0x01 [])) (fun t => memRead t 0x20 = 0x01 ∧
      memRead t 0x24 = 2) = true ∧
    nextIs (exec (.wrByte 0x92) (wrAt .reading 3 2 .crc 0xBE 0xEF [])) (fun t => memRead t 0x20 = 0x05) = true := by
  decide +kernel

/-- W4: a CRC error in the second group; the first stays collected. -/
theorem test_wrByte_crc_error :
    nextIs (exec (.wrByte 0x00) (wrAt .reading 4 5 .crc 0x12 0x34 [0xBE, 0xEF])) (fun t => memRead t 0x20 = 0x03 ∧
      memRead t 0x23 = 6 ∧ memRead t 0x24 = 2 ∧ memRead t 0x25 = 0x12 ∧ memRead t 0x26 = 0x34) = true := by
  decide +kernel

/-- W6, W8: no validated group, and a partial second group. -/
theorem test_wrEnd :
    nextIs (exec .wrEnd (wrAt .reading 4 2 .crc 0xBE 0xEF [])) (fun t => memRead t 0x20 = 0x24) = true ∧
    nextIs (exec .wrEnd (wrAt .reading 4 4 .second 0x12 0xEF [0xBE, 0xEF]))
      (fun t => memRead t 0x20 = 0x15 ∧ memRead t 0x25 = 0x12) = true := by decide

/-- S4 and R206. -/
theorem test_reservedE :
    nextIs (exec (decode 0xE00) State.reset) (fun t => memRead t 0x09 = 0x01 ∧ { t with sys := ⟨false⟩ } = State.reset) = true := by
  decide

/-- S5. -/
theorem test_reservedF : nextIs (exec (decode 0xF5A) State.reset) (fun t => memRead t 0x09 = 0x01) = true := by decide

/-! ## The port -/

/-- S1 and S2: scalar addresses after reset, and unmapped ones. -/
theorem test_read_port_after_reset :
    [0x00, 0x01, 0x02, 0x03, 0x04, 0x09, 0x10, 0x13, 0x20, 0x26].map (memRead State.reset) =
      [0x00, 0xFF, 0xFF, 0xFF, 0x00, 0x00, 0x00, 0x00, 0x00, 0x00] ∧
    [0x0A, 0x1F, 0x3F, 0x6D, 0x7F, 0xA8, 0xFF].map (memRead State.reset) = List.replicate 7 0x00 := by decide

/-- S11: the read in the step of CHK.ADD sees the value before it. -/
theorem test_read_sees_state_before :
    rdata (State.reset.present (PortIn.ofWord 0x205)) = some 0x00 ∧
    nextIs (step (State.reset.present (PortIn.ofWord 0x205))) (fun t => memRead t 0x00 = 0x05) = true := by decide

/-- S10: `rst` = 1 in the step of word 0x2FF, from `chk_acc` = 10. -/
theorem test_reset_wins :
    nextIs (step ({ State.reset with chk := ⟨0x10⟩, sys := ⟨true⟩ }.present ⟨true, true, 0x2FF, 0x00⟩))
      (fun t => t.chk.acc = 0x00 ∧ t.sys.illOp = false) = true := by decide

/-- S12: `op_valid` = 0 with 0xE00 on `op`. -/
theorem test_op_valid_low : nextIs (step (State.reset.present ⟨false, false, 0xE00, 0x00⟩)) (fun t => t.sys.illOp = false) = true := by
  decide

/-- A table word placed where the next step finds it is decoded and runs: W13, then S9. -/
theorem test_with_fetch_word :
    nextIs (step (State.reset.withFetchWord 16 0xB29)) (fun t => memRead t 0x09 = 0x01) = true ∧
    nextIs (step (State.reset.withFetchWord 16 0x8FF)) (fun t => memRead t 0x10 = 0x01) = true := by decide

/-! ## Witnesses: for each statement with hypotheses, values that meet them -/

/-- A state that meets the invariant in the middle of both kinds of read. -/
def midReads : State :=
  { frAt .reading .none true 200 [0x00, 0x03] with
    wr := (wrAt .reading 4 4 .second 0x12 0xEF [0xBE, 0xEF]).wr
    sys := ⟨true⟩
    inputs := [PortIn.ofWord 0xA00] }

/-- Both buffers full. -/
def fullBuffers : State :=
  { frReadingAt (List.replicate 45 0xAA) with wr := (wrAt .done 40 60 .first 0x26 0x27 (List.replicate 40 0x55)).wr }

theorem test_witness_ArgumentBitsUsedAsTheyStandOrIgnored :
    ((0x97E : OpWord).toNat / 256 = (0x9FF : OpWord).toNat / 256 ∧
      (0x97E : OpWord).toNat / 256 ∈ [0x2, 0x4, 0x5, 0x7, 0x9, 0xB, 0xC]) ∧
    ((0xFFF : OpWord).toNat / 256 = (0xF00 : OpWord).toNat / 256 ∧
      (0xFFF : OpWord).toNat / 256 ∉ [0x2, 0x4, 0x5, 0x7, 0x9, 0xB, 0xC]) := by decide

theorem test_witness_StatementsStandForDefinedOperations :
    Statement.toInstr ⟨.chkAdd, some 255⟩ = some (.chkAdd 0xFF) ∧ Statement.toInstr ⟨.nop, none⟩ = some .nop ∧
    Statement.toInstr ⟨.wrByte, some 0⟩ = some (.wrByte 0x00) := by decide

/-- R92, R93: a count of FR.WAIT, 0 included; the reads of ESC.STR. -/
theorem test_assemble_pseudo :
    assemble "FR.WAIT 0" = some [] ∧ assemble "FR.WAIT 2" = some [PortIn.ofWord 0xA00, PortIn.ofWord 0xA00] ∧
    assemble "ESC.STR 0x7E" = some [PortIn.ofWord 0x57E, PortIn.ofRead 0x06, PortIn.ofRead 0x04, PortIn.ofRead 0x05] := by
  decide +kernel

theorem test_witness_StepRunsDecodedOperation :
    ∃ (s : State) (p : PortIn) (rest : List PortIn), s.inputs = p :: rest ∧ p.rst = false ∧ p.opValid = true :=
  ⟨midReads, PortIn.ofWord 0xA00, [], rfl, rfl, rfl⟩

theorem test_witness_NopAndIdleStepChangeNothing :
    ∃ (s : State) (p : PortIn) (rest : List PortIn), s.inputs = p :: rest ∧ p.rst = false ∧ p.opValid = false :=
  ⟨midReads.present ⟨false, false, 0xE00, 0xFF⟩, _, _, rfl, rfl, rfl⟩

theorem test_witness_StepWithoutInputExecutesNothing : (frReadingAt f1Bytes).inputs = [] := rfl

theorem test_witness_ResetStepSetsEveryElement :
    ∃ (s : State) (p : PortIn) (rest : List PortIn), s.inputs = p :: rest ∧ p.rst = true ∧ 44 < 45 ∧ 39 < 40 :=
  ⟨midReads.present PortIn.ofReset, _, _, rfl, rfl, by decide, by decide⟩

/-- The entries at both ends of both buffers, the first entry beyond, and the ends of every unmapped range. -/
theorem test_witness_ReadPortMap :
    (0 < fullBuffers.fr.count.val ∧ fullBuffers.fr.buf.read 0 = some 0xAA) ∧
    (44 < fullBuffers.fr.count.val ∧ fullBuffers.fr.buf.read 44 = some 0xAA) ∧ fullBuffers.fr.count.val ≤ 45 ∧
    (39 < fullBuffers.wr.count.val ∧ fullBuffers.wr.buf.read 39 = some 0x55) ∧ fullBuffers.wr.count.val ≤ 40 ∧
    (∀ a ∈ ([0x0A, 0x0F, 0x19, 0x1F, 0x27, 0x3F, 0x6D, 0x7F, 0xA8, 0xFF] : List RAddr),
      (0x0A ≤ a.toNat ∧ a.toNat ≤ 0x0F) ∨ (0x19 ≤ a.toNat ∧ a.toNat ≤ 0x1F) ∨ (0x27 ≤ a.toNat ∧ a.toNat ≤ 0x3F) ∨
        (0x6D ≤ a.toNat ∧ a.toNat ≤ 0x7F) ∨ 0xA8 ≤ a.toNat) := by decide +kernel

theorem test_witness_ReadSeesStateBeforeAndHasNoEffect :
    ∃ (s : State) (p : PortIn) (rest : List PortIn), s.inputs = p :: rest ∧ p.rst = true :=
  ⟨midReads.present PortIn.ofReset, _, _, rfl, rfl⟩

theorem test_witness_ChkOutIsChecksumOfAddedBytes :
    midReads.Inv ∧ [Instr.crc8Init, .chkAdd 0x03, .frTick, .chkAdd 0xF9, .wrEnd].filter (fun i => i.unitOf = .chk) =
      ([0x03, 0xF9] : List Byte).map Instr.chkAdd := by decide

theorem test_witness_ChecksumLaws : ([0x01, 0x02, 0x02] : List Byte).Perm [0x02, 0x01, 0x02] ∧ 0 < 8 ∧ 7 < 8 := by decide

theorem test_witness_Crc8OutIsCrcOfTheWord :
    midReads.Inv ∧ [Instr.chkClr, .crc8Upd 0xBE, .frTick, .crc8Upd 0xEF].filter (fun i => i.unitOf = .crc8) =
      [.crc8Upd 0xBE, .crc8Upd 0xEF] := by decide

theorem test_witness_Crc8WordLaws : 0 < 8 ∧ 7 < 8 := by decide

theorem test_witness_EscPutEscapesOneByte :
    ∀ b ∈ ([0x00, 0x10, 0x12, 0x31, 0x7C, 0x7F, 0xFF] : List Byte), b ≠ 0x11 ∧ b ≠ 0x13 ∧ b ≠ 0x7D ∧ b ≠ 0x7E := by decide

theorem test_witness_StuffLaws :
    (stuff [0x42, 0x7E])[1]? = some 0x7D ∧ (stuff [0x7D])[0]? = some 0x7D ∧
    ∀ b ∈ ([0x31, 0x5D, 0x10] : List Byte), b ∉ ([0x11, 0x13, 0x7D, 0x7E] : List Byte) := by decide

theorem test_witness_UnstuffStuffRoundTrip : stuff [0x7E, 0x42] = stuff [0x7E, 0x42] := rfl

/-- AWAIT_HEADER, and each state that is not active. -/
theorem test_witness_FrByteOutsideReading :
    (frAt .awaitHeader .none false 200 []).fr.state = .awaitHeader ∧ State.reset.fr.state = .idle ∧
    (frAt .complete .none false 0 f1Bytes).fr.state = .complete ∧ (frAt .timedOut .none true 201 []).fr.state = .timedOut ∧
    (frAt .protocolError .badHeader false 0 []).fr.state = .protocolError := by decide

/-- With and without a pending escape, with room for one byte and with none. -/
theorem test_witness_FrByteEscapeSequence :
    ((frReadingAt []).fr.state = .reading ∧ (frReadingAt []).fr.pend = false) ∧
    (let f := (frAt .reading .none true 0 (List.replicate 44 0xAA)).fr; f.state = .reading ∧ f.pend = true ∧ f.count.val ≠ 45) ∧
    (let f := (frAt .reading .none true 0 (List.replicate 45 0xAA)).fr; f.state = .reading ∧ f.pend = true ∧ f.count.val = 45) ∧
    ((0x7E : Byte) ≠ 0x31 ∧ (0x7E : Byte) ≠ 0x33 ∧ (0x7E : Byte) ≠ 0x5D ∧ (0x7E : Byte) ≠ 0x5E) := by decide +kernel

theorem test_witness_FrByteStoresVerbatim :
    (frReadingAt (List.replicate 44 0xAA)).fr.state = .reading ∧ (frReadingAt (List.replicate 44 0xAA)).fr.pend = false ∧
    (frReadingAt (List.replicate 44 0xAA)).fr.count.val ≠ 45 ∧ fullBuffers.fr.state = .reading ∧
    fullBuffers.fr.pend = false ∧ fullBuffers.fr.count.val = 45 ∧ (0x11 : Byte) ≠ 0x7D ∧ (0x11 : Byte) ≠ 0x7E := by
  decide +kernel

/-- Two, three, four and five bytes accumulated: the boundaries of the checks. -/
theorem test_witness_FrClosingHeaderRunsTheChecks :
    ∀ n ∈ [2, 3, 4, 5], (frReadingAt (List.replicate n 0x00)).fr.state = .reading ∧
      (frReadingAt (List.replicate n 0x00)).fr.pend = false ∧ (frReadingAt (List.replicate n 0x00)).fr.count.val = n := by decide

theorem test_witness_FrTickAndTheDeadline :
    (frAt .awaitHeader .none false 199 []).fr.state = .awaitHeader ∧ (frAt .reading .none false 200 []).fr.state = .reading ∧
    State.reset.fr.state = .idle ∧ (frAt .timedOut .none false 201 []).fr.state = .timedOut := by decide

theorem test_witness_FrFinishedStateLeftOnlyByStartOrReset :
    ∃ s t : State, step s = .next t ∧ s.fr.state.active = false ∧ s.action ≠ .reset ∧ s.action ≠ .execute .frStart :=
  ⟨(frAt .complete .none false 7 f1Bytes).present (PortIn.ofWord 0x97E), _, rfl, by decide, by decide, by decide⟩

/-- One change of state of each kind. -/
theorem test_witness_FrOutcomesHaveTheirOnlyCauses :
    (midReads.Inv ∧ ∃ t, exec .frTick midReads = .next t ∧ t.fr.state = .timedOut ∧ t.fr.state ≠ midReads.fr.state) ∧
    (midReads.Inv ∧ ∃ t, exec (.frByte 0x7D) midReads = .next t ∧ t.fr.state = .protocolError ∧
      t.fr.state ≠ midReads.fr.state) ∧
    ((frReadingAt f1Bytes).Inv ∧ ∃ t, exec (.frByte 0x7E) (frReadingAt f1Bytes) = .next t ∧ t.fr.state = .complete ∧
      t.fr.state ≠ (frReadingAt f1Bytes).fr.state) ∧
    (State.reset.Inv ∧ ∃ t, exec .frStart State.reset = .next t ∧ t.fr.state = .awaitHeader ∧
      t.fr.state ≠ State.reset.fr.state) ∧
    ((frAt .awaitHeader .none false 200 []).Inv ∧ ∃ t, exec (.frByte 0x7E) (frAt .awaitHeader .none false 200 []) = .next t ∧
      t.fr.state = .reading ∧ t.fr.state ≠ (frAt .awaitHeader .none false 200 []).fr.state) :=
  ⟨⟨by decide, _, rfl, by decide, by decide⟩, ⟨by decide, _, rfl, by decide, by decide⟩,
   ⟨by decide, _, rfl, by decide +kernel, by decide +kernel⟩, ⟨by decide, _, rfl, by decide, by decide⟩,
   ⟨by decide, _, rfl, by decide, by decide⟩⟩

theorem test_witness_FrTimerChangesOnlyByStartAndTick :
    (∃ t, exec .frStart State.reset = .next t ∧ State.reset.fr.state.active = false) ∧
    (∃ t, exec .frTick midReads = .next t ∧ midReads.fr.state.active = true) ∧
    (∃ t, exec (.frByte 0x5E) midReads = .next t) :=
  ⟨⟨_, rfl, by decide⟩, ⟨_, rfl, by decide⟩, ⟨_, rfl⟩⟩

/-- A reply with ticks before, between and after its bytes; the bounds themselves. -/
theorem test_witness_ReplyFrameRoundTrip :
    State.reset.fr.state.active = false ∧ ([] : List Byte).length ≤ 40 ∧ (List.replicate 40 (0x7E : Byte)).length ≤ 40 ∧
    (∀ i ∈ [Instr.frTick, .frByte 0x7E, .frByte 0x00, .frTick, .frByte 0x00, .frByte 0x00, .frByte 0x00, .frByte 0xFF,
      .frByte 0x7E, .frTick], i = .frTick ∨ ∃ b, i = .frByte b) ∧
    [Instr.frTick, .frByte 0x7E, .frByte 0x00, .frTick, .frByte 0x00, .frByte 0x00, .frByte 0x00, .frByte 0xFF,
      .frByte 0x7E, .frTick].count .frTick ≤ Config.frTimeoutTicks ∧
    [Instr.frTick, .frByte 0x7E, .frByte 0x00, .frTick, .frByte 0x00, .frByte 0x00, .frByte 0x00, .frByte 0xFF,
      .frByte 0x7E, .frTick].filterMap Instr.frWireByte = replyWire 0x00 0x00 0x00 [] :=
  ⟨by decide, by decide, by decide, by simp, by decide, by decide⟩

theorem test_witness_WrongChecksumIsRejected :
    State.reset.fr.state.active = false ∧ (List.replicate 40 (0x7E : Byte)).length ≤ 40 ∧
    (0x7E : Byte) ≠ chk8 (0x00 :: 0x03 :: 0x43 :: BitVec.ofNat 8 40 :: List.replicate 40 0x7E) := by decide +kernel

theorem test_witness_ReadAttemptEndsByTheDeadline :
    State.reset.Inv ∧ State.reset.fr.state.active = false ∧
    Config.frTimeoutTicks + 1 ≤ (Instr.frByte 0x7E :: List.replicate 201 Instr.frTick).count .frTick := by decide +kernel

/-- READING; then the two largest arguments on each side of the bound, outside READING. -/
theorem test_witness_WrStartBeginsARead :
    midReads.wr.state = .reading ∧ State.reset.wr.state ≠ .reading ∧ 40 < (41 : Byte).toNat ∧ (40 : Byte).toNat ≤ 40 ∧
    (0 : Byte).toNat ≤ 40 := by decide

/-- Each phase at the largest values of `wr_raw` and `wr_count`. -/
theorem test_witness_WrByteConsumesOneRawByte :
    (let w := (wrAt .reading 40 57 .first 0 0 (List.replicate 38 0x00)).wr; w.state = .reading ∧ w.raw.val < 60 ∧
      (w.phase = .crc → w.count.val ≤ 38) ∧ w.phase = .first) ∧
    (let w := (wrAt .reading 40 58 .second 0 0 (List.replicate 38 0x00)).wr; w.state = .reading ∧ w.raw.val < 60 ∧
      (w.phase = .crc → w.count.val ≤ 38) ∧ w.phase = .second) ∧
    (let w := (wrAt .reading 40 59 .crc 0 0 (List.replicate 38 0x00)).wr; w.state = .reading ∧ w.raw.val < 60 ∧
      (w.phase = .crc → w.count.val ≤ 38) ∧ w.phase = .crc) := by decide +kernel

theorem test_witness_WrEndAndIgnoredOperations : midReads.wr.state = .reading ∧ fullBuffers.wr.state ≠ .reading := by decide +kernel

/-- A READING state that meets the invariant, with the last byte but one of the largest read consumed. -/
theorem test_witness_OnlyStopIsWrByteOutOfRange_invariant :
    (wrAt .reading 40 59 .crc 0 0 (List.replicate 38 0x00)).Inv ∧
    (wrAt .reading 40 59 .crc 0 0 (List.replicate 38 0x00)).wr.state = .reading := ⟨by decide +kernel, rfl⟩

/-- The model's stop, at both bounds, and no stop one below them. -/
theorem test_witness_OnlyStopIsWrByteOutOfRange :
    [exec (.wrByte 0x00) (wrAt .reading 40 60 .first 0 0 []),
     exec (.wrByte 0x81) (wrAt .reading 40 59 .crc 0 0 (List.replicate 39 0x00)),
     exec (.wrByte 0x81) (wrAt .reading 40 59 .crc 0 0 (List.replicate 38 0x00))].map (nextIs · (fun _ => true)) =
      [false, false, true] := by decide +kernel

theorem test_witness_WrFinishedStateLeftOnlyByStartOrReset :
    ∃ s t : State, step s = .next t ∧ s.wr.state ≠ .reading ∧ s.action ≠ .reset ∧
      ∀ n, s.action ≠ .execute (.wrStart n) := by
  refine ⟨(wrAt .errShort 4 4 .second 0x12 0xEF [0xBE, 0xEF]).present (PortIn.ofWord 0xC12), _, rfl, by decide, by decide, ?_⟩
  intro n h
  have : (PortIn.ofWord 0xC12).action = .execute (.wrByte 0x12) := by decide
  exact absurd (this.symm.trans h) (by simp)

theorem test_witness_WordReplyRoundTrip :
    State.reset.wr.state ≠ .reading ∧ [((0xBE : Byte), (0xEF : Byte))] ≠ [] ∧ [((0xBE : Byte), (0xEF : Byte))].length ≤ 20 ∧
    (List.replicate 20 ((0x00 : Byte), (0xFF : Byte))).length ≤ 20 := by decide

/-- No good group before the bad one with n = 2, and 19 with n = 40. -/
theorem test_witness_BadGroupEndsTheRead :
    State.reset.wr.state ≠ .reading ∧ 2 * (([] : List (Byte × Byte)).length + 1) ≤ (2 : Byte).toNat ∧
    2 * ((List.replicate 19 ((0x00 : Byte), (0x01 : Byte))).length + 1) ≤ (40 : Byte).toNat ∧ (40 : Byte).toNat ≤ 40 ∧
    (0x93 : Byte) ≠ crc8Word 0xBE 0xEF := by decide +kernel

theorem test_witness_ShortReplyEndsTheRead :
    State.reset.wr.state ≠ .reading ∧ 2 * (([] : List (Byte × Byte)).length + 1) ≤ (2 : Byte).toNat ∧
    2 * ((List.replicate 19 ((0x00 : Byte), (0x01 : Byte))).length + 1) ≤ (40 : Byte).toNat ∧ (40 : Byte).toNat ≤ 40 ∧
    ([] : List Byte).length ≤ 2 ∧ ([0xBE, 0xEF] : List Byte).length ≤ 2 := by decide

theorem test_witness_OddLengthEndsShort :
    State.reset.wr.state ≠ .reading ∧ [((0xBE : Byte), (0xEF : Byte))] ≠ [] ∧
    2 * [((0xBE : Byte), (0xEF : Byte))].length + 1 ≤ 40 ∧
    2 * (List.replicate 19 ((0xBE : Byte), (0xEF : Byte))).length + 1 ≤ 40 := by decide

theorem test_witness_WordReadEnds :
    State.reset.Inv ∧ State.reset.wr.state ≠ .reading ∧ 2 ≤ (2 : Byte).toNat ∧ (40 : Byte).toNat ≤ 40 ∧
    Instr.wrEnd ∈ [Instr.chkClr, .wrEnd] ∧
    (40 : Byte).toNat / 2 * 3 ≤ (Instr.frTick :: List.replicate 60 (Instr.wrByte 0x81)).countP Instr.isWrByte :=
  ⟨by decide, by decide, by decide, by decide, by decide, by decide +kernel⟩

theorem test_witness_IllOpIsStickyAndHarmless :
    (∃ t, exec (.wrStart 41) State.reset = .next t) ∧ (∃ t, step midReads = .next t ∧ midReads.sys.illOp = true) ∧
    (∃ t, step (midReads.present PortIn.ofReset) = .next t ∧ (midReads.present PortIn.ofReset).action = .reset) :=
  ⟨⟨_, rfl⟩, ⟨_, rfl, rfl⟩, ⟨_, rfl, rfl⟩⟩

theorem test_witness_OperationWritesOnlyItsUnit :
    (∃ t, exec (.chkAdd 0x01) midReads = .next t) ∧ Instr.unitOf (.chkAdd 0x01) ≠ .fr ∧
    Instr.illegal (.chkAdd 0x01) midReads.wr = false ∧ Instr.illegal (.wrStart 41) State.reset.wr = true ∧
    addrUnit 0x10 ≠ Instr.unitOf (.chkAdd 0x01) ∧ (addrUnit 0x10 = .sys → Instr.illegal (.chkAdd 0x01) midReads.wr = false) :=
  ⟨⟨_, rfl⟩, by decide, by decide, by decide, by decide, by decide⟩

/-- Two states alike in FR and WR only. -/
theorem test_witness_OperationReadsOnlyItsUnit :
    (∃ t t', exec (.frByte 0x5E) midReads = .next t ∧ exec (.frByte 0x5E) { midReads with chk := ⟨0x55⟩ } = .next t') ∧
    (∃ t t', exec (.wrByte 0x34) midReads = .next t ∧ exec (.wrByte 0x34) { midReads with crc8 := ⟨0x55⟩ } = .next t') ∧
    midReads.Inv ∧ midReads.fr = ({ midReads with chk := ⟨0x55⟩ } : State).fr ∧
    (∃ t t', exec .reservedE State.reset = .next t ∧ exec .reservedE (frReadingAt f1Bytes) = .next t' ∧
      Instr.reservedE.unitOf = .sys ∧ State.reset.sys = (frReadingAt f1Bytes).sys) ∧
    (∃ t t', exec (.wrStart 41) State.reset = .next t ∧ exec (.wrStart 41) (frReadingAt f1Bytes) = .next t' ∧
      State.reset.wr = (frReadingAt f1Bytes).wr ∧ State.reset.sys = (frReadingAt f1Bytes).sys) :=
  ⟨⟨_, _, rfl, rfl⟩, ⟨_, _, rfl, rfl⟩, by decide, rfl, ⟨_, _, rfl, rfl, rfl, rfl⟩, ⟨_, _, rfl, rfl, rfl, rfl⟩⟩

theorem test_witness_BuffersAreWrittenAtTheirCount :
    (∃ t, exec (.frByte 0x5E) midReads = .next t ∧ 1 ≠ midReads.fr.count.val) ∧
    (∃ t, exec (.wrByte 0x34) midReads = .next t ∧ 1 ≠ midReads.wr.count.val ∧ 1 ≠ midReads.wr.count.val + 1) ∧
    (∃ t, exec .frStart State.reset = .next t) ∧ (∃ t, exec (.wrStart 40) State.reset = .next t) :=
  ⟨⟨_, rfl, by decide⟩, ⟨_, rfl, by decide, by decide⟩, ⟨_, rfl⟩, ⟨_, rfl⟩⟩

theorem test_witness_OperationsOfDifferentUnitsCommute : Instr.unitOf (.wrStart 41) ≠ Instr.unitOf .reservedE := by decide

theorem test_witness_EveryOperationCompletes : midReads.Inv ∧ fullBuffers.Inv := ⟨by decide, by decide +kernel⟩

theorem test_witness_EveryStepKeepsTheInvariant :
    midReads.Inv ∧ (∃ t, step midReads = .next t) ∧ midReads.sys.illOp = true ∧ midReads.action ≠ .reset :=
  ⟨by decide, ⟨_, rfl⟩, rfl, by decide⟩

theorem test_witness_EveryStepKeepsBuffersCanonical :
    midReads.fr.buf.wf ∧ midReads.wr.buf.wf ∧ ∃ t, step midReads = .next t := ⟨by decide, by decide, _, rfl⟩

end Sys2Proof.Tests
end

section
/-! The step of the block that finds an operation on its pins (spec/00_scope.md R10, spec/30_encoding.md R85). -/

namespace Sys2Proof.Machine

/-- R85: the pins ask for the operation on `op`. -/
theorem PortIn.action_of_opValid {p : PortIn} (hrst : p.rst = false) (hvalid : p.opValid = true) :
    p.action = .execute (decode p.op) := by
  simp [PortIn.action, hrst, hvalid]

theorem State.action_of_inputs {s : State} {p : PortIn} {rest : List PortIn} (h : s.inputs = p :: rest) :
    s.action = p.action := by
  rw [State.action, h]

theorem State.takeInput_of_inputs {s : State} {p : PortIn} {rest : List PortIn} (h : s.inputs = p :: rest) :
    s.takeInput = { s with inputs := rest } := by
  rw [State.takeInput, h, List.tail_cons]

/-- The companion of `step_execute` for an operation that stops. -/
theorem step_execute_fault {s : State} {i : Instr} {r : Fault} (h : s.action = .execute i)
    (hr : exec i s.takeInput = .fault r) : step s = .fault r := by
  simp only [step, h, hr]

/-- Settles O8, by the outcomes of `exec`; it never refuses. -/
theorem stepRunsDecodedOperation : Obligations.StepRunsDecodedOperation := by
  intro s p rest hin hrst hvalid
  have hact : s.action = .execute (decode p.op) :=
    (State.action_of_inputs hin).trans (PortIn.action_of_opValid hrst hvalid)
  rw [← State.takeInput_of_inputs hin]
  cases he : exec (decode p.op) s.takeInput with
  | next t => exact step_execute hact he
  | fault r => exact step_execute_fault hact he
  | refused r => exact absurd he (exec_ne_refused _ _ r)

end Sys2Proof.Machine
end

section
/-! The partition of the state by unit (spec/10_state.md R21): the unit an operation writes, and what stands behind the
other units' read addresses. -/

namespace Sys2Proof.Machine

/-- `s` with the state of unit `u` taken from `t`. -/
def State.withUnit (s : State) (u : UnitName) (t : State) : State :=
  match u with
  | .chk => { s with chk := t.chk }
  | .crc8 => { s with crc8 := t.crc8 }
  | .esc => { s with esc := t.esc }
  | .desc => { s with desc := t.desc }
  | .fr => { s with fr := t.fr }
  | .wr => { s with wr := t.wr }
  | .sys => { s with sys := t.sys }

section
variable {u : UnitName} (s t : State)

theorem withUnit_chk (h : u ≠ .chk) : (s.withUnit u t).chk = s.chk := by cases u <;> trivial
theorem withUnit_crc8 (h : u ≠ .crc8) : (s.withUnit u t).crc8 = s.crc8 := by cases u <;> trivial
theorem withUnit_esc (h : u ≠ .esc) : (s.withUnit u t).esc = s.esc := by cases u <;> trivial
theorem withUnit_desc (h : u ≠ .desc) : (s.withUnit u t).desc = s.desc := by cases u <;> trivial
theorem withUnit_fr (h : u ≠ .fr) : (s.withUnit u t).fr = s.fr := by cases u <;> trivial
theorem withUnit_wr (h : u ≠ .wr) : (s.withUnit u t).wr = s.wr := by cases u <;> trivial
theorem withUnit_sys (h : u ≠ .sys) : (s.withUnit u t).sys = s.sys := by cases u <;> trivial
@[simp] theorem withUnit_inputs : (s.withUnit u t).inputs = s.inputs := by cases u <;> rfl
@[simp] theorem withUnit_draws : (s.withUnit u t).draws = s.draws := by cases u <;> rfl

end

theorem illegal_wrStart {n : Byte} {w : WrUnit} :
    (Instr.wrStart n).illegal w = true ↔ w.state ≠ .reading ∧ 40 < n.toNat := by
  simp [Instr.illegal]

/-- The unit an operation writes when WR is `w`: its own, or SYS where it raises IllegalOperation (R206). -/
def Instr.writes (i : Instr) (w : WrUnit) : UnitName := if i.illegal w then .sys else i.unitOf

theorem writes_of_legal {i : Instr} {w : WrUnit} (h : i.illegal w = false) : Instr.writes i w = i.unitOf := by
  simp [Instr.writes, h]

theorem writes_of_illegal {i : Instr} {w : WrUnit} (h : i.illegal w = true) : Instr.writes i w = .sys := by
  simp [Instr.writes, h]

/-- An operation that raises IllegalOperation answers a state that is new in SYS alone. -/
theorem exec_of_illegal {i : Instr} {s : State} (h : i.illegal s.wr = true) :
    exec i s = .next { s with sys := raiseIllegalOperation s.sys } := by
  cases i <;> try contradiction
  case wrStart n =>
    obtain ⟨hstate, hn⟩ := illegal_wrStart.1 h
    exact exec_wrStart_of_none hstate (expectedLength_eq_none.2 hn)
  case reservedE => rfl
  case reservedF => rfl

/-- An operation that raises nothing answers a state that is new in its own unit alone. -/
theorem exec_of_legal {i : Instr} {s t : State} (hi : i.illegal s.wr = false) (h : exec i s = .next t) :
    t = s.withUnit i.unitOf t := by
  cases i
  case wrStart n =>
    rcases exec_wrStart_cases n s with ⟨-, e⟩ | ⟨-, _, -, e⟩ | ⟨hstate, hn, -⟩
    · cases e.symm.trans h; rfl
    · cases e.symm.trans h; rfl
    · have := illegal_wrStart.2 ⟨hstate, expectedLength_eq_none.1 hn⟩
      simp_all
  case wrByte b =>
    rcases exec_wrByte_cases b s with ⟨_, -, e⟩ | ⟨-, e⟩
    · cases e.symm.trans h; rfl
    · cases e.symm.trans h
  case reservedE => contradiction
  case reservedF => contradiction
  all_goals cases h; rfl

/-- R21: an operation writes one unit. -/
theorem exec_eq_withUnit {i : Instr} {s t : State} (h : exec i s = .next t) :
    t = s.withUnit (Instr.writes i s.wr) t := by
  cases hi : i.illegal s.wr with
  | false => rw [writes_of_legal hi]; exact exec_of_legal hi h
  | true => rw [writes_of_illegal hi]; cases (exec_of_illegal hi).symm.trans h; rfl

/-- Only an operation that raises IllegalOperation or belongs to SYS writes SYS. -/
theorem writes_ne {i : Instr} {w : WrUnit} {u : UnitName} (hu : i.unitOf ≠ u)
    (hsys : u = .sys → i.illegal w = false) : Instr.writes i w ≠ u := by
  cases hi : i.illegal w with
  | false => rwa [writes_of_legal hi]
  | true =>
    rw [writes_of_illegal hi]
    rintro rfl
    simp_all

/-- R206: `ill_op` is set by exactly the operations that raise IllegalOperation. -/
theorem exec_illOp {i : Instr} {s t : State} (h : exec i s = .next t) :
    t.sys.illOp = (s.sys.illOp || i.illegal s.wr) := by
  cases hi : i.illegal s.wr with
  | true => cases (exec_of_illegal hi).symm.trans h; simp
  | false =>
    rw [Bool.or_false]
    by_cases hu : i.unitOf = .sys
    · cases i <;> try contradiction
      cases h; rfl
    · exact congrArg SysUnit.illOp ((congrArg State.sys (exec_of_legal hi h)).trans (withUnit_sys s t hu))

/-- The unit whose state a register of the read port shows (R53); none for an unassigned address. -/
def ReadReg.unit : ReadReg → Option UnitName
  | .CHK_ACC | .CHK_OUT => some .chk
  | .CRC8_REG | .CRC8_OUT => some .crc8
  | .ESC_OUT0 | .ESC_OUT1 | .ESC_CNT => some .esc
  | .DESC_STAT | .DESC_OUT => some .desc
  | .SYS_STAT => some .sys
  | .FR_STAT | .FR_COUNT | .FR_TIMER_LO | .FR_TIMER_HI | .FR_ADDR | .FR_CMD | .FR_DSTATE | .FR_LEN | .FR_CHK
  | .FR_BUF _ => some .fr
  | .WR_STAT | .WR_EXPECT | .WR_REQ | .WR_RAW | .WR_COUNT | .WR_D0 | .WR_D1 | .WR_BUF _ => some .wr
  | .unmapped => none

/-- `addrUnit` is the unit of the register at the address, over the table of R53. -/
theorem readReg_unit : ∀ a : RAddr, readReg a = .unmapped ∨ (readReg a).unit = some (addrUnit a) := by decide

/-- A register shows the state of its unit, and the free draws, alone. -/
theorem regByte_withUnit {u : UnitName} (s t : State) {r : ReadReg} (h : r.unit ≠ some u) :
    regByte (s.withUnit u t) r = regByte s r := by
  cases r
  case unmapped => rfl
  all_goals replace h : u ≠ _ := fun e => h (congrArg some e.symm)
  case CHK_ACC | CHK_OUT => simp only [regByte, withUnit_chk s t h]
  case CRC8_REG | CRC8_OUT => simp only [regByte, withUnit_crc8 s t h]
  case ESC_OUT0 | ESC_OUT1 | ESC_CNT => simp only [regByte, withUnit_esc s t h]
  case DESC_STAT | DESC_OUT => simp only [regByte, withUnit_desc s t h]
  case SYS_STAT => simp only [regByte, withUnit_sys s t h]
  case WR_STAT | WR_EXPECT | WR_REQ | WR_RAW | WR_COUNT | WR_D0 | WR_D1 | WR_BUF =>
    simp only [regByte, withUnit_wr s t h, withUnit_draws]
  all_goals simp only [regByte, withUnit_fr s t h, withUnit_draws]

/-- The read addresses of a unit other than `u` do not see `u`. -/
theorem memRead_withUnit {u : UnitName} (s t : State) {a : RAddr} (h : addrUnit a ≠ u) :
    memRead (s.withUnit u t) a = memRead s a := by
  apply regByte_withUnit
  rcases readReg_unit a with e | e
  · simp [e, ReadReg.unit]
  · simpa [e] using h

/-- Settles O49: the state answered is the old one but for the unit written. -/
theorem operationWritesOnlyItsUnit : Obligations.OperationWritesOnlyItsUnit := by
  intro i s t h
  have ht := exec_eq_withUnit h
  refine ⟨fun hu => ?_, fun hu => ?_, fun hu => ?_, fun hu => ?_, fun hu => ?_, fun hu => ?_, fun hi => ?_, fun hi => ?_,
    ?_, ?_, fun a hu hsys => ?_⟩
  · exact (congrArg State.chk ht).trans (withUnit_chk s t (writes_ne hu nofun))
  · exact (congrArg State.crc8 ht).trans (withUnit_crc8 s t (writes_ne hu nofun))
  · exact (congrArg State.esc ht).trans (withUnit_esc s t (writes_ne hu nofun))
  · exact (congrArg State.desc ht).trans (withUnit_desc s t (writes_ne hu nofun))
  · exact (congrArg State.fr ht).trans (withUnit_fr s t (writes_ne hu nofun))
  · exact (congrArg State.wr ht).trans (withUnit_wr s t (writes_ne hu nofun))
  · have := exec_illOp h
    rw [hi, Bool.or_false] at this
    exact congrArg SysUnit.mk this
  · rw [writes_of_illegal hi] at ht
    exact ht
  · exact (congrArg State.inputs ht).trans (withUnit_inputs s t)
  · exact (congrArg State.draws ht).trans (withUnit_draws s t)
  · exact (congrArg (memRead · a) ht).trans (memRead_withUnit s t (writes_ne (Ne.symm hu) hsys).symm)

end Sys2Proof.Machine
end

section
/-! What WR.BYTE can do in READING (spec/44_word_reader.md R174 to R179), and the only stop of the block (log 7). -/

namespace Sys2Proof.Machine

/-- The unit in which R174's `case wr_phase` runs: `wr_raw` is already the new one. -/
def WrUnit.counted (w : WrUnit) (h : w.raw.val + 1 < Config.wrReqCap + 1) : WrUnit :=
  { w with raw := ⟨w.raw.val + 1, h⟩ }

section
variable (w : WrUnit) (h : w.raw.val + 1 < Config.wrReqCap + 1)

@[simp] theorem counted_state : (w.counted h).state = w.state := rfl
@[simp] theorem counted_expect : (w.counted h).expect = w.expect := rfl
@[simp] theorem counted_req : (w.counted h).req = w.req := rfl
@[simp] theorem counted_raw : (w.counted h).raw.val = w.raw.val + 1 := rfl
@[simp] theorem counted_phase : (w.counted h).phase = w.phase := rfl
@[simp] theorem counted_d0 : (w.counted h).d0 = w.d0 := rfl
@[simp] theorem counted_d1 : (w.counted h).d1 = w.d1 := rfl
@[simp] theorem counted_count : (w.counted h).count = w.count := rfl
@[simp] theorem counted_buf : (w.counted h).buf = w.buf := rfl

end

/-- Everything WR.BYTE can do in READING: the byte is counted and dispatched on the phase, or `wr_raw` is at its end. -/
theorem wrReadingByte_cases (b : Byte) (w : WrUnit) :
    (∃ h, wrReadingByte b w = (wrPhaseByte b (w.counted h)).map wrAutoExhaust) ∨
    (w.raw.val = 60 ∧ wrReadingByte b w = none) := by
  have := w.raw_le
  unfold wrReadingByte
  split
  · exact .inl ⟨by assumption, rfl⟩
  · exact .inr ⟨by simp at *; omega, rfl⟩

/-- A group that passes (R177, R178): two data bytes more, and DONE when the read has what it expects. -/
def WrUnit.passed (w : WrUnit) (h : w.count.val + 2 < Config.wrBufCap + 1) : WrUnit :=
  wrComplete { w with
    phase := .first,
    buf := (w.buf.write w.count.val w.d0).write (w.count.val + 1) w.d1,
    count := ⟨w.count.val + 2, h⟩ }

/-- Everything the `case wr_phase` of R174 can do. -/
theorem wrPhaseByte_cases (b : Byte) (w : WrUnit) :
    (w.phase = .first ∧ wrPhaseByte b w = some { w with d0 := b, phase := .second }) ∨
    (w.phase = .second ∧ wrPhaseByte b w = some { w with d1 := b, phase := .crc }) ∨
    (w.phase = .crc ∧ b ≠ crc8Word w.d0 w.d1 ∧ wrPhaseByte b w = some (raiseWr .errCrc { w with phase := .first })) ∨
    (w.phase = .crc ∧ b = crc8Word w.d0 w.d1 ∧ ∃ h, wrPhaseByte b w = some (w.passed h)) ∨
    (w.phase = .crc ∧ b = crc8Word w.d0 w.d1 ∧ 38 < w.count.val ∧ wrPhaseByte b w = none) := by
  unfold wrPhaseByte
  cases hp : w.phase with
  | first => exact .inl ⟨rfl, rfl⟩
  | second => exact .inr (.inl ⟨rfl, rfl⟩)
  | crc =>
    refine .inr (.inr ?_)
    by_cases hb : b = crc8Word w.d0 w.d1
    · refine .inr ?_
      rcases wrAppend_cases { w with phase := .first } with ⟨h, e⟩ | ⟨h, e⟩
      · exact .inl ⟨rfl, hb, h, by simp only [if_pos hb, e]; rfl⟩
      · exact .inr ⟨rfl, hb, h, by simp only [if_pos hb, e]; rfl⟩
    · exact .inl ⟨rfl, hb, by simp only [if_neg hb]⟩

/-- The states in which WR.BYTE would leave a register's range. -/
theorem wrByte_eq_none {b : Byte} {w : WrUnit} :
    wrByte b w = none ↔ w.state = .reading ∧
      (w.raw.val = 60 ∨ (w.phase = .crc ∧ b = crc8Word w.d0 w.d1 ∧ 38 < w.count.val)) := by
  by_cases hs : w.state = .reading
  case neg => simp [wrByte_of_not_reading b hs, hs]
  rw [wrByte_of_reading b hs]
  rcases wrReadingByte_cases b w with ⟨h, e⟩ | ⟨h60, e⟩
  case inr => simp [e, hs, h60]
  have hraw : w.raw.val ≠ 60 := by simp at h; omega
  rw [e, Option.map_eq_none_iff]
  rcases wrPhaseByte_cases b (w.counted h) with ⟨hp, e⟩ | ⟨hp, e⟩ | ⟨hp, hb, e⟩ | ⟨hp, hb, hc, e⟩ | ⟨hp, hb, hc, e⟩
  · simp_all
  · simp_all
  · simp_all
  · have : ¬ 38 < w.count.val := by simp at hc; omega
    simp_all
  · simp_all

/-- No operation but WR.BYTE stops. -/
theorem exec_eq_fault {i : Instr} {s : State} :
    (∃ r, exec i s = .fault r) ↔ ∃ b, i = .wrByte b ∧ wrByte b s.wr = none := by
  cases i
  case wrStart n => rcases exec_wrStart_cases n s with ⟨-, e⟩ | ⟨-, _, -, e⟩ | ⟨-, -, e⟩ <;> simp [e]
  case wrByte b =>
    rcases exec_wrByte_cases b s with ⟨w, hw, e⟩ | ⟨hw, e⟩
    · simp [hw, e]
    · exact iff_of_true ⟨_, e⟩ ⟨b, rfl, hw⟩
  all_goals simp

/-- A running read that meets the invariant is away from both bounds: the request ends by 60 and the expected length
by 40, and the count is even. -/
theorem WrUnit.bounds_of_inv {w : WrUnit} (h : w.Inv) (hs : w.state = .reading) : w.raw.val < 60 ∧ w.count.val ≤ 38 := by
  obtain ⟨-, heven, -, -, -, -, -, -, hrunning, -⟩ := h
  have := hrunning hs
  have := w.req_le
  have := w.expect_le
  omega

/-- Settles O40. -/
theorem onlyStopIsWrByteOutOfRange : Obligations.OnlyStopIsWrByteOutOfRange := by
  intro i s
  refine ⟨exec_ne_refused i s, ?_, fun ⟨_, _, hwr⟩ => WrUnit.bounds_of_inv hwr⟩
  simp only [exec_eq_fault, wrByte_eq_none]

end Sys2Proof.Machine
end

section
/-! The invariant of WR (spec/10_state.md R37 items 1 and 6 to 8) is kept by each operation of WR. -/

namespace Sys2Proof.Machine

/-- What holds of a read in progress, also between the counting of its last requested byte and the exhaustion that
follows in the same operation (R174). -/
structure WrUnit.Collecting (w : WrUnit) : Prop where
  count_lt : w.count.val < w.expect.val
  count_even : w.count.val % 2 = 0
  raw_le_req : w.raw.val ≤ w.req.val
  raw_eq : w.raw.val = w.count.val / 2 * 3 + w.phase.index
  req_eq : w.req.val = w.expect.val / 2 * 3
  filled : w.buf.filledTo w.count.val

theorem WrUnit.Inv.collecting {w : WrUnit} (h : w.Inv) (hs : w.state = .reading) : w.Collecting := by
  obtain ⟨-, heven, hraw, hgroup, -, -, -, hreq, hrunning, -, -, hfilled⟩ := h
  exact ⟨(hrunning hs).2, heven, hraw, hgroup (.inl hs), hreq, hfilled⟩

theorem WrUnit.Inv.raw_lt {w : WrUnit} (h : w.Inv) (hs : w.state = .reading) : w.raw.val < w.req.val := by
  obtain ⟨-, -, -, -, -, -, -, -, hrunning, -⟩ := h
  exact (hrunning hs).1

theorem WrUnit.Collecting.inv {w : WrUnit} (h : w.Collecting) (hs : w.state = .reading) (hlt : w.raw.val < w.req.val) :
    w.Inv := by
  obtain ⟨hcount, heven, hraw, hgroup, hreq, hfilled⟩ := h
  refine ⟨hcount.le, heven, hraw, fun _ => hgroup, ?_, ?_, ?_, hreq, fun _ => ⟨hlt, hcount⟩, ?_, ?_, hfilled⟩ <;> simp [hs]

/-- Ending a read in progress keeps the invariant, whatever its phase (R179, R180). -/
theorem wrExhaust_inv {w : WrUnit} (h : w.Collecting) : (wrExhaust w).Inv := by
  obtain ⟨hcount, heven, hraw, hgroup, hreq, hfilled⟩ := h
  by_cases h0 : w.count.val = 0
  · have he : wrExhaust w = raiseWr .errNoData w := by rw [wrExhaust, if_pos h0]
    rw [he]
    refine ⟨hcount.le, heven, hraw, fun _ => hgroup, ?_, ?_, ?_, hreq, ?_, fun _ => h0, ?_, hfilled⟩ <;> simp
  · have he : wrExhaust w = raiseWr .errShort w := by rw [wrExhaust, if_neg h0]
    rw [he]
    refine ⟨hcount.le, heven, hraw, fun _ => hgroup, ?_, ?_, ?_, hreq, ?_, ?_, fun _ => ⟨Nat.pos_of_ne_zero h0, hcount⟩,
      hfilled⟩ <;> simp

theorem wrAutoExhaust_inv {w : WrUnit} (h : w.Collecting) (hs : w.state = .reading) : (wrAutoExhaust w).Inv := by
  unfold wrAutoExhaust
  split
  · exact wrExhaust_inv h
  · exact h.inv hs (lt_of_le_of_ne h.raw_le_req fun e => by simp_all [Fin.ext_iff])

theorem wrAutoExhaust_of_not_reading {w : WrUnit} (hs : w.state ≠ .reading) : wrAutoExhaust w = w := by
  simp [wrAutoExhaust, hs]

section
variable {w : WrUnit} (h : w.Collecting) (hlt : w.raw.val < w.req.val) (hr : w.raw.val + 1 < Config.wrReqCap + 1)
include h hlt

/-- A data byte of a group keeps a read in progress (R174, R175). -/
theorem collecting_firstByte (hp : w.phase = .first) (b : Byte) :
    WrUnit.Collecting { w.counted hr with d0 := b, phase := .second } := by
  obtain ⟨hcount, heven, -, hgroup, hreq, hfilled⟩ := h
  exact ⟨hcount, heven, hlt, by simpa [hp, WrPhase.index] using hgroup, hreq, hfilled⟩

theorem collecting_secondByte (hp : w.phase = .second) (b : Byte) :
    WrUnit.Collecting { w.counted hr with d1 := b, phase := .crc } := by
  obtain ⟨hcount, heven, -, hgroup, hreq, hfilled⟩ := h
  exact ⟨hcount, heven, hlt, by simpa [hp, WrPhase.index] using hgroup, hreq, hfilled⟩

/-- A group that fails ends the read where its CRC byte was consumed (R176). -/
theorem raise_errCrc_inv (hp : w.phase = .crc) : (raiseWr .errCrc { w.counted hr with phase := .first }).Inv := by
  obtain ⟨hcount, heven, -, hgroup, hreq, hfilled⟩ := h
  have hraw : w.raw.val + 1 = w.count.val / 2 * 3 + 3 := by rw [hgroup, hp]; rfl
  refine ⟨hcount.le, heven, hlt, ?_, fun _ => ⟨rfl, hraw⟩, ?_, ?_, hreq, ?_, ?_, ?_, hfilled⟩ <;> simp

/-- A group that passes keeps the invariant: either more is expected and the read goes on, or it is DONE with every
requested byte consumed and as much as expected collected, for a read of odd length stops short (R177, R178, R173). -/
theorem passed_inv (hs : w.state = .reading) (hp : w.phase = .crc) (hc : w.count.val + 2 < Config.wrBufCap + 1) :
    (wrAutoExhaust ((w.counted hr).passed hc)).Inv := by
  obtain ⟨hcount, heven, -, hgroup, hreq, hfilled⟩ := h
  have heven' : (w.count.val + 2) % 2 = 0 := by omega
  have hraw : w.raw.val + 1 = (w.count.val + 2) / 2 * 3 := by rw [hgroup, hp, WrPhase.index]; omega
  have hfilled' := Memory.filledTo_write w.d1 (Memory.filledTo_write w.d0 hfilled)
  unfold WrUnit.passed wrComplete
  split
  · rename_i hdone
    have hdone : w.expect.val ≤ w.count.val + 2 := hdone
    have hexpect : w.count.val + 2 = w.expect.val := by omega
    have htwo : 2 ≤ w.expect.val := by omega
    have hlast : (w.counted hr).raw = w.req := Fin.ext (by rw [counted_raw]; omega)
    rw [wrAutoExhaust_of_not_reading (by simp)]
    refine ⟨hexpect.le, heven', hlt, ?_, ?_, fun _ => rfl, fun _ => ⟨hexpect, htwo, hlast⟩, hreq, ?_, ?_, ?_,
      hfilled'⟩ <;> simp
  · rename_i hmore
    have hmore : ¬ w.expect.val ≤ w.count.val + 2 := hmore
    exact wrAutoExhaust_inv ⟨Nat.not_le.1 hmore, heven', hlt, hraw, hreq, hfilled'⟩ hs

end

theorem wrByte_inv {b : Byte} {w v : WrUnit} (h : w.Inv) (hv : wrByte b w = some v) : v.Inv := by
  by_cases hs : w.state = .reading
  case neg => rw [wrByte_of_not_reading b hs] at hv; cases hv; exact h
  have hcol := h.collecting hs
  have hlt := h.raw_lt hs
  rw [wrByte_of_reading b hs] at hv
  rcases wrReadingByte_cases b w with ⟨hr, e⟩ | ⟨-, e⟩
  case inr => cases e.symm.trans hv
  rw [e] at hv
  rcases wrPhaseByte_cases b (w.counted hr) with ⟨hp, e⟩ | ⟨hp, e⟩ | ⟨hp, -, e⟩ | ⟨hp, -, hc, e⟩ | ⟨-, -, -, e⟩ <;>
    rw [e] at hv <;> cases hv
  · exact wrAutoExhaust_inv (collecting_firstByte hcol hlt hr hp b) hs
  · exact wrAutoExhaust_inv (collecting_secondByte hcol hlt hr hp b) hs
  · rw [wrAutoExhaust_of_not_reading (by simp)]
    exact raise_errCrc_inv hcol hlt hr hp
  · exact passed_inv hcol hlt hr hs hp hc

theorem wrEnd_inv {w : WrUnit} (h : w.Inv) : (wrEnd w).Inv := by
  unfold wrEnd
  split
  · exact wrExhaust_inv (h.collecting (by assumption))
  · exact h

/-- An accepted WR.START begins a read that meets the invariant; one of no or one byte is over at once (R170, R173). -/
theorem wrBegin_inv (n : Fin (Config.wrBufCap + 1)) : (wrBegin n).Inv := by
  unfold wrBegin
  split
  · rename_i h
    refine ⟨?_, ?_, ?_, ?_, ?_, ?_, ?_, ?_, ?_, ?_, ?_, rfl⟩ <;> simp [WrPhase.index, h]
  · rename_i h
    exact WrUnit.Collecting.inv ⟨by simp; omega, rfl, Nat.zero_le _, by simp [WrPhase.index], rfl, rfl⟩ rfl (by simp; omega)

theorem reset_wr_inv : State.reset.wr.Inv := by decide

end Sys2Proof.Machine
end

section
/-! The invariant of FR (spec/10_state.md R37 items 2 to 5) is kept by each operation of FR. -/

namespace Sys2Proof.Machine

/-- What the invariant says of an attempt in progress, but for the pending flag and for the count before the header. -/
structure FrUnit.Attempting (f : FrUnit) : Prop where
  cause_none : f.cause = .none
  timer_le : f.timer.toNat ≤ 200
  filled : f.buf.filledTo f.count.val

/-- An attempt in progress has no cause and its deadline ahead (R37 items 2 and 4). -/
theorem FrUnit.Inv.attempting {f : FrUnit} (h : f.Inv) (hs : f.state.active = true) : f.Attempting := by
  obtain ⟨hcause, -, htimer, hdeadline, -, -, hfilled⟩ := h
  have hne : f.state ≠ .protocolError ∧ f.state ≠ .timedOut := by
    rcases FrState.active_eq_true.1 hs with e | e <;> simp [e]
  have h201 : f.timer.toNat ≠ 201 := fun e => hne.2 (hdeadline.1 e)
  exact ⟨not_not.1 fun hc => hne.1 (hcause.1 hc), by simp at htimer; omega, hfilled⟩

theorem FrUnit.Attempting.timer_ne {f : FrUnit} (h : f.Attempting) : f.timer.toNat ≠ 201 := by
  have := h.timer_le
  omega

/-- In READING nothing more is asked, whether an escape is pending or not. -/
theorem FrUnit.Attempting.inv_reading {f : FrUnit} (h : f.Attempting) (hs : f.state = .reading) : f.Inv := by
  refine ⟨?_, fun _ => .inl hs, h.timer_le.trans (by simp), ?_, ?_, ?_, h.filled⟩ <;> simp [hs, h.cause_none, h.timer_ne]

/-- An attempt ends in PROTOCOL_ERROR with a cause and with nothing pending (R37 items 2 and 3). -/
theorem raiseProtocolError_inv {f : FrUnit} (h : f.Attempting) (hp : f.pend = false) {c : FrCause} (hc : c ≠ .none) :
    (raiseProtocolError c f).Inv := by
  refine ⟨?_, ?_, h.timer_le.trans (by simp), ?_, ?_, ?_, h.filled⟩ <;> simp [hc, hp, h.timer_ne]

theorem frStore_inv {f : FrUnit} (h : f.Attempting) (hs : f.state = .reading) (hp : f.pend = false) (v : Byte) :
    (frStore v f).Inv := by
  rcases frStore_cases v f with ⟨hc, e⟩ | ⟨-, e⟩ <;> rw [e]
  · exact FrUnit.Attempting.inv_reading ⟨h.cause_none, h.timer_le, Memory.filledTo_write v h.filled⟩ hs
  · exact raiseProtocolError_inv h hp nofun

/-- The end-of-frame checks read specified entries alone, so what they accept is a good frame whatever the free draws
are (R37 item 5). -/
theorem goodFrame_of_checks {d : Nat} {f : FrUnit} (hf : f.buf.filledTo f.count.val) (h5 : 5 ≤ f.count.val)
    (hlen : f.count.val = (frEntry d f 3).toNat + 5)
    (hchk : chk8 (frBytes d f (f.count.val - 1)) = frEntry d f (f.count.val - 1)) : f.goodFrame := by
  have hl : f.buf.bytes.length = f.count.val := by rw [Memory.bytes_length, Memory.length_of_filledTo hf]
  refine ⟨h5, ?_, ?_⟩
  · rw [← frEntry_of_filledTo d hf (by omega), Option.map_some, ← hlen]
  · rw [List.getLast?_eq_getElem?, List.dropLast_eq_take, hl, ← frBytes_of_filledTo d hf (Nat.sub_le _ 1), hchk]
    exact (frEntry_of_filledTo d hf (by omega)).symm

theorem frFinalise_inv {f : FrUnit} (h : f.Attempting) (hp : f.pend = false) (d : Nat) : (frFinalise d f).Inv := by
  rcases frFinalise_cases d f with ⟨c, hc, e⟩ | ⟨e, h5, hlen, hchk⟩ <;> rw [e]
  · exact raiseProtocolError_inv h hp (by rcases hc with rfl | rfl | rfl <;> simp)
  · have hgood := goodFrame_of_checks h.filled h5 hlen hchk
    refine ⟨?_, ?_, h.timer_le.trans (by simp), ?_, fun _ => hgood, ?_, h.filled⟩ <;> simp [hp, h.cause_none, h.timer_ne]

theorem frReadingByte_inv {f : FrUnit} (h : f.Attempting) (hs : f.state = .reading) (d : Nat) (b : Byte) :
    (frReadingByte d b f).Inv := by
  have hsettled : FrUnit.Attempting { f with pend := false } := ⟨h.cause_none, h.timer_le, h.filled⟩
  unfold frReadingByte
  split
  · unfold frUnstuff
    split
    · exact frStore_inv hsettled hs rfl _
    · exact raiseProtocolError_inv hsettled rfl nofun
  · rename_i hp
    have hp : f.pend = false := by simpa using hp
    split
    · exact FrUnit.Attempting.inv_reading ⟨h.cause_none, h.timer_le, h.filled⟩ hs
    · split
      · exact frFinalise_inv h hp d
      · exact frStore_inv h hs hp b

theorem frByte_inv {f : FrUnit} (h : f.Inv) (d : Nat) (b : Byte) : (frByte d b f).Inv := by
  unfold frByte
  split
  · rename_i hs
    have hatt := h.attempting (by simp [hs])
    have hp : f.pend = false := by
      obtain ⟨-, hpend, -⟩ := h
      simpa [hs] using hpend
    split
    · exact FrUnit.Attempting.inv_reading ⟨hatt.cause_none, hatt.timer_le, hatt.filled⟩ rfl
    · exact raiseProtocolError_inv hatt hp nofun
  · rename_i hs
    exact frReadingByte_inv (h.attempting (by simp [hs])) hs d b
  all_goals exact h

/-- The deadline passes exactly when the timer reaches FR_TIMEOUT_TICKS + 1 (R162, R37 item 4). -/
theorem frTick_inv {f : FrUnit} (h : f.Inv) : (frTick f).Inv := by
  unfold frTick
  split
  case isFalse => exact h
  rename_i hs
  have hatt := h.attempting hs
  have := hatt.timer_le
  have hnext : (f.timer + 1).toNat = f.timer.toNat + 1 := by rw [BitVec.toNat_add]; simp; omega
  obtain ⟨hcause, hpend, -, -, hgood, hempty, hfilled⟩ := h
  split
  · rename_i hover
    have h201 : (f.timer + 1).toNat = 201 := by simp at hover; omega
    refine ⟨?_, fun _ => .inr rfl, h201.le, iff_of_true h201 rfl, ?_, ?_, hfilled⟩ <;> simp [hatt.cause_none]
  · rename_i hwithin
    have hle : (f.timer + 1).toNat ≤ 200 := by simp at hwithin; omega
    have hne : f.state ≠ .timedOut := by rintro e; simp [e] at hs
    exact ⟨hcause, hpend, hle.trans (by simp), iff_of_false (hle.trans_lt (by simp)).ne hne, hgood, hempty, hfilled⟩

theorem frFresh_inv : frFresh.Inv := by decide

theorem frStart_inv {f : FrUnit} (h : f.Inv) : (frStart f).Inv := by
  unfold frStart
  split
  · exact h
  · exact frFresh_inv

theorem reset_fr_inv : State.reset.fr.Inv := by decide

end Sys2Proof.Machine
end

section
/-! The invariant of the block (spec/10_state.md R37): reset meets it, every operation and every step keeps it. -/

namespace Sys2Proof.Machine

theorem descFresh_inv : descFresh.Inv := nofun

/-- R37 item 9: the operation that sets `desc_err` drops `desc_pend`, and nothing moves once `desc_err` is set. -/
theorem descPut_inv {u : DescUnit} (h : u.Inv) (b : Byte) : (descPut b u).Inv := by
  unfold descPut
  split
  · exact h
  · rename_i herr
    have herr : u.err = false := by simpa using herr
    split
    · split <;> exact nofun
    · split <;> exact fun _ => herr

/-- Settles O54, unit by unit. -/
theorem resetMeetsTheInvariant : Obligations.ResetMeetsTheInvariant :=
  ⟨descFresh_inv, reset_fr_inv, reset_wr_inv⟩

/-- Every operation keeps the invariant: it is kept by the unit that the operation writes. -/
theorem exec_inv {i : Instr} {s t : State} (hinv : s.Inv) (h : exec i s = .next t) : t.Inv := by
  obtain ⟨hdesc, hfr, hwr⟩ := hinv
  cases i
  case descClr => cases h; exact ⟨descFresh_inv, hfr, hwr⟩
  case descPut b => cases h; exact ⟨descPut_inv hdesc b, hfr, hwr⟩
  case frStart => cases h; exact ⟨hdesc, frStart_inv hfr, hwr⟩
  case frByte b => cases h; exact ⟨hdesc, frByte_inv hfr s.draws b, hwr⟩
  case frTick => cases h; exact ⟨hdesc, frTick_inv hfr, hwr⟩
  case wrStart n =>
    rcases exec_wrStart_cases n s with ⟨-, e⟩ | ⟨-, m, -, e⟩ | ⟨-, -, e⟩ <;> cases e.symm.trans h
    · exact ⟨hdesc, hfr, hwr⟩
    · exact ⟨hdesc, hfr, wrBegin_inv m⟩
    · exact ⟨hdesc, hfr, hwr⟩
  case wrByte b =>
    rcases exec_wrByte_cases b s with ⟨w, hw, e⟩ | ⟨-, e⟩ <;> cases e.symm.trans h
    exact ⟨hdesc, hfr, wrByte_inv hwr hw⟩
  case wrEnd => cases h; exact ⟨hdesc, hfr, wrEnd_inv hwr⟩
  all_goals cases h; exact ⟨hdesc, hfr, hwr⟩

/-- Settles O55: a reset answers the reset values, an idle step touches no unit, and an operation keeps the invariant and
never clears `ill_op`. -/
theorem everyStepKeepsTheInvariant : Obligations.EveryStepKeepsTheInvariant := by
  intro s t hinv h
  rcases step_cases h with ⟨ha, rfl⟩ | ⟨-, rfl⟩ | ⟨i, u, -, hu, rfl⟩
  · exact ⟨resetMeetsTheInvariant, fun _ hne => absurd ha hne⟩
  · exact ⟨hinv, fun hill _ => hill⟩
  · have hill' := exec_illOp hu
    refine ⟨exec_inv (s := s.takeInput) (t := u) hinv hu, fun hill _ => ?_⟩
    simpa [hill] using hill'

end Sys2Proof.Machine
end

section
/-! What an operation does to its unit depends on that unit alone (spec/10_state.md R21). -/

namespace Sys2Proof.Machine

section
variable {i : Instr}

theorem unitOf_eq_chk : i.unitOf = .chk ↔ i = .chkClr ∨ ∃ b, i = .chkAdd b := by cases i <;> simp [Instr.unitOf]
theorem unitOf_eq_crc8 : i.unitOf = .crc8 ↔ i = .crc8Init ∨ ∃ b, i = .crc8Upd b := by cases i <;> simp [Instr.unitOf]
theorem unitOf_eq_esc : i.unitOf = .esc ↔ ∃ b, i = .escPut b := by cases i <;> simp [Instr.unitOf]
theorem unitOf_eq_desc : i.unitOf = .desc ↔ i = .descClr ∨ ∃ b, i = .descPut b := by cases i <;> simp [Instr.unitOf]
theorem unitOf_eq_fr : i.unitOf = .fr ↔ i = .frStart ∨ (∃ b, i = .frByte b) ∨ i = .frTick := by
  cases i <;> simp [Instr.unitOf]
theorem unitOf_eq_wr : i.unitOf = .wr ↔ (∃ n, i = .wrStart n) ∨ (∃ b, i = .wrByte b) ∨ i = .wrEnd := by
  cases i <;> simp [Instr.unitOf]
theorem unitOf_eq_sys : i.unitOf = .sys ↔ i = .nop ∨ i = .reservedE ∨ i = .reservedF := by
  cases i <;> simp [Instr.unitOf]

end

/-- A specified entry of `fr_buf` is the same byte whatever the free draws are. -/
theorem frEntry_draws {f : FrUnit} (hf : f.buf.filledTo f.count.val) {k : Nat} (hk : k < f.count.val) (d d' : Nat) :
    frEntry d f k = frEntry d' f k :=
  Option.some.inj ((frEntry_of_filledTo d hf hk).trans (frEntry_of_filledTo d' hf hk).symm)

/-- The end-of-frame checks look at specified entries alone. -/
theorem frFinalise_draws {f : FrUnit} (hf : f.buf.filledTo f.count.val) (d d' : Nat) :
    frFinalise d f = frFinalise d' f := by
  unfold frFinalise
  by_cases h5 : f.count.val < 5
  · simp [h5]
  · rw [frEntry_draws hf (by omega) d d', frEntry_draws hf (k := f.count.val - 1) (by omega) d d',
      frBytes_of_filledTo d hf (Nat.sub_le _ 1), frBytes_of_filledTo d' hf (Nat.sub_le _ 1)]

/-- Where the specified entries are those below the count, FR.BYTE does the same whatever the free draws are. -/
theorem frByte_draws {f : FrUnit} (hf : f.buf.filledTo f.count.val) (d d' : Nat) (b : Byte) :
    frByte d b f = frByte d' b f := by
  simp only [frByte, frReadingByte, frFinalise_draws hf d d']

section
variable {i : Instr} {s s' t t' : State}

theorem exec_chk_congr (hu : i.unitOf = .chk) (h : exec i s = .next t) (h' : exec i s' = .next t')
    (hs : s.chk = s'.chk) : t.chk = t'.chk := by
  rcases unitOf_eq_chk.1 hu with rfl | ⟨b, rfl⟩ <;> cases h <;> cases h' <;> simp [hs]

theorem exec_crc8_congr (hu : i.unitOf = .crc8) (h : exec i s = .next t) (h' : exec i s' = .next t')
    (hs : s.crc8 = s'.crc8) : t.crc8 = t'.crc8 := by
  rcases unitOf_eq_crc8.1 hu with rfl | ⟨b, rfl⟩ <;> cases h <;> cases h' <;> simp [hs]

/-- R120: ESC.PUT reads no state at all. -/
theorem exec_esc_congr (hu : i.unitOf = .esc) (h : exec i s = .next t) (h' : exec i s' = .next t') :
    t.esc = t'.esc := by
  obtain ⟨b, rfl⟩ := unitOf_eq_esc.1 hu
  cases h
  cases h'
  rfl

theorem exec_desc_congr (hu : i.unitOf = .desc) (h : exec i s = .next t) (h' : exec i s' = .next t')
    (hs : s.desc = s'.desc) : t.desc = t'.desc := by
  rcases unitOf_eq_desc.1 hu with rfl | ⟨b, rfl⟩ <;> cases h <;> cases h' <;> simp [hs]

/-- FR depends on the free draws in no way but through FR.BYTE. -/
theorem exec_fr_congr (hu : i.unitOf = .fr) (h : exec i s = .next t) (h' : exec i s' = .next t')
    (hs : s.fr = s'.fr) (hdraws : ∀ b, frByte s.draws b s.fr = frByte s'.draws b s.fr) : t.fr = t'.fr := by
  rcases unitOf_eq_fr.1 hu with rfl | ⟨b, rfl⟩ | rfl <;> cases h <;> cases h'
  · exact congrArg frStart hs
  · exact (hdraws b).trans (congrArg (frByte s'.draws b) hs)
  · exact congrArg frTick hs

/-- WR.START looks at `wr_state` and at its argument (R171, R172). -/
theorem exec_wrStart_congr {n : Byte} (h : exec (.wrStart n) s = .next t) (h' : exec (.wrStart n) s' = .next t')
    (hs : s.wr = s'.wr) : t.wr = t'.wr := by
  by_cases hr : s.wr.state = .reading
  · cases (exec_wrStart_of_reading n hr).symm.trans h
    cases (exec_wrStart_of_reading n (hs ▸ hr)).symm.trans h'
    exact hs
  · cases he : expectedLength n with
    | some e =>
      cases (exec_wrStart_of_length hr he).symm.trans h
      cases (exec_wrStart_of_length (hs ▸ hr) he).symm.trans h'
      rfl
    | none =>
      cases (exec_wrStart_of_none hr he).symm.trans h
      cases (exec_wrStart_of_none (hs ▸ hr) he).symm.trans h'
      exact hs

theorem exec_wrByte_congr {b : Byte} (h : exec (.wrByte b) s = .next t) (h' : exec (.wrByte b) s' = .next t')
    (hs : s.wr = s'.wr) : t.wr = t'.wr := by
  cases hw : wrByte b s.wr with
  | some w =>
    cases (exec_wrByte_of_some hw).symm.trans h
    cases (exec_wrByte_of_some (hs ▸ hw)).symm.trans h'
    rfl
  | none => cases (exec_wrByte_of_none hw).symm.trans h

theorem exec_wr_congr (hu : i.unitOf = .wr) (h : exec i s = .next t) (h' : exec i s' = .next t')
    (hs : s.wr = s'.wr) : t.wr = t'.wr := by
  rcases unitOf_eq_wr.1 hu with ⟨n, rfl⟩ | ⟨b, rfl⟩ | rfl
  · exact exec_wrStart_congr h h' hs
  · exact exec_wrByte_congr h h' hs
  · cases h
    cases h'
    exact congrArg wrEnd hs

/-- R206: what an operation does to `ill_op` depends on `ill_op` and on WR. -/
theorem exec_sys_congr_of_wr (h : exec i s = .next t) (h' : exec i s' = .next t') (hw : s.wr = s'.wr)
    (hs : s.sys = s'.sys) : t.sys = t'.sys :=
  congrArg SysUnit.mk (by rw [exec_illOp h, exec_illOp h', hw, hs])

theorem exec_sys_congr (hu : i.unitOf = .sys) (h : exec i s = .next t) (h' : exec i s' = .next t')
    (hs : s.sys = s'.sys) : t.sys = t'.sys := by
  rcases unitOf_eq_sys.1 hu with rfl | rfl | rfl <;> cases h <;> cases h' <;> simp [hs]

end

/-- Settles O50, unit by unit; the invariant shuts out the free draws. -/
theorem operationReadsOnlyItsUnit : Obligations.OperationReadsOnlyItsUnit := by
  intro i s s' t t' h h'
  refine ⟨fun hu => exec_chk_congr hu h h', fun hu => exec_crc8_congr hu h h', fun hu => exec_esc_congr hu h h',
    fun hu => exec_desc_congr hu h h', fun hu hs hd => exec_fr_congr hu h h' hs fun _ => by rw [hd],
    fun hu hinv hs => ?_, fun hu => exec_wr_congr hu h h', fun hu => exec_sys_congr hu h h',
    fun _ => exec_sys_congr_of_wr h h'⟩
  obtain ⟨-, ⟨-, -, -, -, -, -, hfilled⟩, -⟩ := hinv
  exact exec_fr_congr hu h h' hs (frByte_draws hfilled s.draws s'.draws)

end Sys2Proof.Machine
end

section
/-! The reset step (spec/10_state.md R45, spec/45_system.md R192, spec/70_reset_and_hazards.md R230). -/

namespace Sys2Proof.Machine

theorem PortIn.action_of_rst {p : PortIn} (h : p.rst = true) : p.action = .reset := by simp [PortIn.action, h]

/-- R53: the addresses of `fr_buf` and of `wr_buf`. -/
theorem readReg_frBuf : ∀ k < 45, readReg (BitVec.ofNat 8 (0x40 + k)) = .FR_BUF k := by decide
theorem readReg_wrBuf : ∀ k < 40, readReg (BitVec.ofNat 8 (0x80 + k)) = .WR_BUF k := by decide

theorem memRead_frBuf (s : State) {k : Nat} (hk : k < 45) :
    memRead s (BitVec.ofNat 8 (0x40 + k)) = frEntry s.draws s.fr k := by
  rw [memRead, readReg_frBuf k hk, regByte]

theorem memRead_wrBuf (s : State) {k : Nat} (hk : k < 40) :
    memRead s (BitVec.ofNat 8 (0x80 + k)) = wrEntry s.draws s.wr k := by
  rw [memRead, readReg_wrBuf k hk, regByte]

/-- Settles O11: the registers stand in the reset record, and with both counts 0 every buffer entry is a free draw. -/
theorem resetStepSetsEveryElement : Obligations.ResetStepSetsEveryElement := by
  intro s p rest hin hrst
  have hstep := step_reset ((State.action_of_inputs hin).trans (PortIn.action_of_rst hrst))
  refine ⟨_, hstep, congrArg List.tail hin, rfl, rfl, rfl, rfl, rfl, rfl, rfl, rfl, rfl, rfl, rfl, rfl, rfl, rfl, rfl, rfl,
    rfl, rfl, rfl, rfl, rfl, rfl, rfl, fun k hk => ?_, fun k hk => ?_⟩
  · rw [memRead_frBuf _ hk]
    exact frEntry_of_le _ (Nat.zero_le k)
  · rw [memRead_wrBuf _ hk]
    exact wrEntry_of_le _ (Nat.zero_le k)

end Sys2Proof.Machine
end

section
/-! What an operation does to the two buffers (spec/20_memory.md R50): the bytes it writes, and at which indices. -/

namespace Sys2Proof.Machine

theorem frStore_buf_cases (v : Byte) (f : FrUnit) :
    (frStore v f).buf = f.buf ∨ (frStore v f).buf = f.buf.write f.count.val v := by
  rcases frStore_cases v f with ⟨_, e⟩ | ⟨-, e⟩
  · exact .inr (by rw [e])
  · exact .inl (by rw [e, raiseProtocolError_buf])

/-- R150: FR.BYTE writes nothing, or one byte at `fr_count`. -/
theorem frByte_buf_cases (d : Nat) (b : Byte) (f : FrUnit) :
    (frByte d b f).buf = f.buf ∨ ∃ v, (frByte d b f).buf = f.buf.write f.count.val v := by
  unfold frByte
  split
  · split <;> exact .inl rfl
  · unfold frReadingByte
    split
    · unfold frUnstuff
      split
      · exact (frStore_buf_cases _ _).imp_right fun e => ⟨_, e⟩
      · exact .inl rfl
    · split
      · exact .inl rfl
      · split
        · exact .inl (frFinalise_buf d f)
        · exact (frStore_buf_cases b f).imp_right fun e => ⟨b, e⟩
  all_goals exact .inl rfl

@[simp] theorem frTick_buf (f : FrUnit) : (frTick f).buf = f.buf := by
  unfold frTick
  split
  · split <;> rfl
  · rfl

theorem frStart_buf_cases (f : FrUnit) : (frStart f).buf = f.buf ∨ (frStart f).buf = Memory.unspecified := by
  unfold frStart
  split
  · exact .inl rfl
  · exact .inr rfl

@[simp] theorem wrExhaust_buf (w : WrUnit) : (wrExhaust w).buf = w.buf := rfl

@[simp] theorem wrAutoExhaust_buf (w : WrUnit) : (wrAutoExhaust w).buf = w.buf := by
  unfold wrAutoExhaust
  split
  · exact wrExhaust_buf w
  · rfl

@[simp] theorem wrEnd_buf (w : WrUnit) : (wrEnd w).buf = w.buf := by
  unfold wrEnd
  split
  · exact wrExhaust_buf w
  · rfl

@[simp] theorem passed_buf (w : WrUnit) (h : w.count.val + 2 < Config.wrBufCap + 1) :
    (w.passed h).buf = (w.buf.write w.count.val w.d0).write (w.count.val + 1) w.d1 := by
  unfold WrUnit.passed wrComplete
  split <;> rfl

/-- R177: WR.BYTE writes nothing, or two bytes at `wr_count` and `wr_count + 1`. -/
theorem wrByte_buf_cases {b : Byte} {w v : WrUnit} (h : wrByte b w = some v) :
    v.buf = w.buf ∨ v.buf = (w.buf.write w.count.val w.d0).write (w.count.val + 1) w.d1 := by
  by_cases hs : w.state = .reading
  case neg => rw [wrByte_of_not_reading b hs] at h; cases h; exact .inl rfl
  rw [wrByte_of_reading b hs] at h
  rcases wrReadingByte_cases b w with ⟨hr, e⟩ | ⟨-, e⟩
  case inr => cases e.symm.trans h
  rw [e] at h
  rcases wrPhaseByte_cases b (w.counted hr) with ⟨-, e⟩ | ⟨-, e⟩ | ⟨-, -, e⟩ | ⟨-, -, hc, e⟩ | ⟨-, -, -, e⟩ <;>
    rw [e] at h <;> cases h <;> rw [wrAutoExhaust_buf]
  · exact .inl rfl
  · exact .inl rfl
  · exact .inl rfl
  · exact .inr (passed_buf _ hc)

/-- Everything an operation can do to `fr_buf`. -/
theorem exec_frBuf_cases {i : Instr} {s t : State} (h : exec i s = .next t) :
    t.fr.buf = s.fr.buf ∨ (i = .frStart ∧ t.fr.buf = Memory.unspecified) ∨
    ∃ b v, i = .frByte b ∧ t.fr.buf = s.fr.buf.write s.fr.count.val v := by
  by_cases hu : i.unitOf = .fr
  case neg =>
    have ht := congrArg State.fr (exec_eq_withUnit h)
    rw [withUnit_fr s t (writes_ne hu nofun)] at ht
    exact .inl (congrArg FrUnit.buf ht)
  rcases unitOf_eq_fr.1 hu with rfl | ⟨b, rfl⟩ | rfl <;> cases h
  · exact (frStart_buf_cases s.fr).imp_right fun e => .inl ⟨rfl, e⟩
  · exact (frByte_buf_cases s.draws b s.fr).imp_right fun ⟨v, e⟩ => .inr ⟨b, v, rfl, e⟩
  · exact .inl (frTick_buf s.fr)

/-- Everything an operation can do to `wr_buf`. -/
theorem exec_wrBuf_cases {i : Instr} {s t : State} (h : exec i s = .next t) :
    t.wr.buf = s.wr.buf ∨ ((∃ n, i = .wrStart n) ∧ t.wr.buf = Memory.unspecified) ∨
    ∃ b, i = .wrByte b ∧
      t.wr.buf = (s.wr.buf.write s.wr.count.val s.wr.d0).write (s.wr.count.val + 1) s.wr.d1 := by
  by_cases hu : i.unitOf = .wr
  case neg =>
    have ht := congrArg State.wr (exec_eq_withUnit h)
    rw [withUnit_wr s t (writes_ne hu nofun)] at ht
    exact .inl (congrArg WrUnit.buf ht)
  rcases unitOf_eq_wr.1 hu with ⟨n, rfl⟩ | ⟨b, rfl⟩ | rfl
  · rcases exec_wrStart_cases n s with ⟨-, e⟩ | ⟨-, m, -, e⟩ | ⟨-, -, e⟩ <;> cases e.symm.trans h
    · exact .inl rfl
    · exact .inr (.inl ⟨⟨n, rfl⟩, rfl⟩)
    · exact .inl rfl
  · rcases exec_wrByte_cases b s with ⟨w, hw, e⟩ | ⟨-, e⟩ <;> cases e.symm.trans h
    exact (wrByte_buf_cases hw).imp_right fun e => .inr ⟨b, rfl, e⟩
  · cases h
    exact .inl (wrEnd_buf s.wr)

/-- Settles O51: a write leaves every other index alone, and a buffer a start operation has emptied has no values. -/
theorem buffersAreWrittenAtTheirCount : Obligations.BuffersAreWrittenAtTheirCount := by
  intro i s t h
  refine ⟨fun k hstart hbyte => ?_, fun k hstart hbyte => ?_, fun k hi => ?_, fun n k hi => ?_⟩
  · rcases exec_frBuf_cases h with e | ⟨hi, -⟩ | ⟨b, v, hi, e⟩
    · rw [e]
    · exact absurd hi hstart
    · rw [e, Memory.read_write_other _ v (hbyte ⟨b, hi⟩)]
  · rcases exec_wrBuf_cases h with e | ⟨⟨n, hi⟩, -⟩ | ⟨b, hi, e⟩
    · rw [e]
    · exact absurd hi (hstart n)
    · obtain ⟨hfirst, hsecond⟩ := hbyte ⟨b, hi⟩
      rw [e, Memory.read_write_other _ _ hsecond, Memory.read_write_other _ _ hfirst]
  · rcases exec_frBuf_cases h with e | ⟨-, e⟩ | ⟨b, v, hi', -⟩
    · exact .inl (by rw [e])
    · exact .inr (by rw [e]; rfl)
    · cases hi.symm.trans hi'
  · rcases exec_wrBuf_cases h with e | ⟨-, e⟩ | ⟨b, hi', -⟩
    · exact .inl (by rw [e])
    · exact .inr (by rw [e]; rfl)
    · cases hi.symm.trans hi'

/-- Every operation keeps the canonical form of both buffers (log 3): it writes them in no way but through
`Memory.write` and `Memory.unspecified`. -/
theorem exec_bufs_wf {i : Instr} {s t : State} (hfr : s.fr.buf.wf) (hwr : s.wr.buf.wf) (h : exec i s = .next t) :
    t.fr.buf.wf ∧ t.wr.buf.wf := by
  constructor
  · rcases exec_frBuf_cases h with e | ⟨-, e⟩ | ⟨b, v, -, e⟩ <;> rw [e]
    · exact hfr
    · exact Memory.wf_unspecified
    · exact Memory.wf_write _ v hfr
  · rcases exec_wrBuf_cases h with e | ⟨-, e⟩ | ⟨b, -, e⟩ <;> rw [e]
    · exact hwr
    · exact Memory.wf_unspecified
    · exact Memory.wf_write _ _ (Memory.wf_write _ _ hwr)

/-- Settles O56: reset empties both buffers, an idle step touches neither, an operation keeps their form. -/
theorem everyStepKeepsBuffersCanonical : Obligations.EveryStepKeepsBuffersCanonical := by
  intro s t hfr hwr h
  rcases step_cases h with ⟨-, rfl⟩ | ⟨-, rfl⟩ | ⟨i, u, -, hu, rfl⟩
  · exact ⟨Memory.wf_unspecified, Memory.wf_unspecified⟩
  · exact ⟨hfr, hwr⟩
  · exact exec_bufs_wf (s := s.takeInput) (t := u) hfr hwr hu

end Sys2Proof.Machine
end

section
/-! Operations of different units commute (spec/20_memory.md R62): each writes its own unit and reads its own unit
(spec/10_state.md R21), and `ill_op` can only be set. -/

namespace Sys2Proof.Machine

/-- Two states have the same unit `u`. -/
def State.SameUnit (u : UnitName) (s t : State) : Prop :=
  match u with
  | .chk => s.chk = t.chk
  | .crc8 => s.crc8 = t.crc8
  | .esc => s.esc = t.esc
  | .desc => s.desc = t.desc
  | .fr => s.fr = t.fr
  | .wr => s.wr = t.wr
  | .sys => s.sys = t.sys

@[symm] theorem State.SameUnit.symm {u : UnitName} {s t : State} (h : s.SameUnit u t) : t.SameUnit u s := by
  cases u <;> exact Eq.symm h

@[trans] theorem State.SameUnit.trans {u : UnitName} {r s t : State} (h : r.SameUnit u s) (h' : s.SameUnit u t) :
    r.SameUnit u t := by
  cases u <;> exact Eq.trans h h'

/-- States that agree on every unit and on the model's own fields are equal. -/
theorem State.eq_of_sameUnit {s t : State} (h : ∀ u, s.SameUnit u t) (hinputs : s.inputs = t.inputs)
    (hdraws : s.draws = t.draws) : s = t := by
  have hchk : s.chk = t.chk := h .chk
  have hcrc8 : s.crc8 = t.crc8 := h .crc8
  have hesc : s.esc = t.esc := h .esc
  have hdesc : s.desc = t.desc := h .desc
  have hfr : s.fr = t.fr := h .fr
  have hwr : s.wr = t.wr := h .wr
  have hsys : s.sys = t.sys := h .sys
  cases s
  cases t
  congr

theorem withUnit_sameUnit {u v : UnitName} (s t : State) (h : v ≠ u) : s.SameUnit u (s.withUnit v t) := by
  symm
  cases u
  case chk => exact withUnit_chk s t h
  case crc8 => exact withUnit_crc8 s t h
  case esc => exact withUnit_esc s t h
  case desc => exact withUnit_desc s t h
  case fr => exact withUnit_fr s t h
  case wr => exact withUnit_wr s t h
  case sys => exact withUnit_sys s t h

section
variable {i j : Instr} {s s' t t' : State} {u : UnitName}

theorem exec_inputs (h : exec i s = .next t) : t.inputs = s.inputs :=
  (congrArg State.inputs (exec_eq_withUnit h)).trans (withUnit_inputs s t)

theorem exec_draws (h : exec i s = .next t) : t.draws = s.draws :=
  (congrArg State.draws (exec_eq_withUnit h)).trans (withUnit_draws s t)

/-- An operation leaves every unit but its own alone, and but SYS, where it may set `ill_op`. -/
theorem exec_sameUnit (h : exec i s = .next t) (hu : i.unitOf ≠ u) (hsys : u ≠ .sys) : s.SameUnit u t := by
  have hne := writes_ne (w := s.wr) hu fun e => absurd e hsys
  have hsame := withUnit_sameUnit s t hne
  rwa [← exec_eq_withUnit h] at hsame

/-- What an operation does to its unit depends on that unit, and on the index of the free draws, alone. -/
theorem exec_sameUnit_congr (h : exec i s = .next t) (h' : exec i s' = .next t') (hu : i.unitOf = u)
    (hdraws : s.draws = s'.draws) (hs : s.SameUnit u s') : t.SameUnit u t' := by
  cases u
  case chk => exact exec_chk_congr hu h h' hs
  case crc8 => exact exec_crc8_congr hu h h' hs
  case esc => exact exec_esc_congr hu h h'
  case desc => exact exec_desc_congr hu h h' hs
  case fr => exact exec_fr_congr hu h h' hs fun _ => by rw [hdraws]
  case wr => exact exec_wr_congr hu h h' hs
  case sys => exact exec_sys_congr hu h h' hs

/-- Whether an operation stops depends on WR alone, and for the operations of WR only. -/
theorem exec_fault_congr {r : Fault} (h : exec i s = .fault r) (hwr : i.unitOf = .wr → s.wr = s'.wr) :
    exec i s' = .fault r := by
  obtain ⟨b, rfl, hb⟩ := exec_eq_fault.1 ⟨r, h⟩
  cases r
  exact exec_wrByte_of_none (hwr rfl ▸ hb)

/-- Whether an operation raises IllegalOperation depends on WR for the operations of WR only (R206). -/
theorem illegal_congr {w w' : WrUnit} (hwr : i.unitOf = .wr → w = w') : i.illegal w = i.illegal w' := by
  by_cases hu : i.unitOf = .wr
  · rw [hwr hu]
  · cases i
    case wrStart n => exact absurd rfl hu
    all_goals rfl

/-- An operation of WR finds WR after an operation of another unit as it was before. -/
theorem exec_wr_of_ne (hu : i.unitOf ≠ j.unitOf) (h : exec i s = .next t) (hj : j.unitOf = .wr) : s.wr = t.wr :=
  exec_sameUnit (u := .wr) h (hj ▸ hu) nofun

end

/-! Two operations of different units, in either order. -/

section
variable {i j : Instr} {s a b c d : State}
variable (hi : exec i s = .next a) (hj : exec j s = .next c) (hij : exec j a = .next b) (hji : exec i c = .next d)
include hi hj hij hji

/-- Both orders leave the same in a unit that `i` does not write: what `j` makes of it, or what was there. -/
theorem sameUnit_either_order_of_ne {u : UnitName} (hiu : i.unitOf ≠ u) (hsys : u ≠ .sys) : b.SameUnit u d := by
  have hsa : s.SameUnit u a := exec_sameUnit hi hiu hsys
  have hcd : c.SameUnit u d := exec_sameUnit hji hiu hsys
  by_cases hju : j.unitOf = u
  · exact (exec_sameUnit_congr hij hj hju (exec_draws hi) hsa.symm).trans hcd
  · have hab : a.SameUnit u b := exec_sameUnit hij hju hsys
    have hsc : s.SameUnit u c := exec_sameUnit hj hju hsys
    exact ((hsa.trans hab).symm.trans hsc).trans hcd

variable (hu : i.unitOf ≠ j.unitOf)
include hu

/-- Both orders leave the same `ill_op`: it is the disjunction of its old value and of what the two operations raise,
which each of them raises in either place. -/
theorem sys_either_order : b.sys = d.sys := by
  have hjl : j.illegal a.wr = j.illegal s.wr := illegal_congr fun hj => (exec_wr_of_ne hu hi hj).symm
  have hil : i.illegal c.wr = i.illegal s.wr := illegal_congr fun hi => (exec_wr_of_ne hu.symm hj hi).symm
  refine congrArg SysUnit.mk ?_
  rw [exec_illOp hij, exec_illOp hi, exec_illOp hji, exec_illOp hj, hjl, hil, Bool.or_right_comm]

theorem eq_either_order : b = d := by
  refine State.eq_of_sameUnit (fun u => ?_) ?_ ?_
  · by_cases hsys : u = .sys
    · subst hsys
      exact sys_either_order hi hj hij hji hu
    · by_cases hiu : i.unitOf = u
      · have hju : j.unitOf ≠ u := fun e => hu (hiu.trans e.symm)
        exact (sameUnit_either_order_of_ne hj hi hji hij hju hsys).symm
      · exact sameUnit_either_order_of_ne hi hj hij hji hiu hsys
  · rw [exec_inputs hij, exec_inputs hi, exec_inputs hji, exec_inputs hj]
  · rw [exec_draws hij, exec_draws hi, exec_draws hji, exec_draws hj]

end

section
variable {i j : Instr} {s a c : State}

theorem runOps_singleton : runOps [i] s = exec i s := by
  rw [runOps]
  cases exec i s <;> rfl

theorem runOps_pair_of_next (h : exec i s = .next a) : runOps [i, j] s = exec j a := by
  rw [runOps, h]
  exact runOps_singleton

theorem runOps_pair_of_fault {r : Fault} (h : exec i s = .fault r) : runOps [i, j] s = .fault r := by
  rw [runOps, h]

/-- An operation that completes still completes after one of another unit. -/
theorem exec_next_after (hu : i.unitOf ≠ j.unitOf) (hi : exec i s = .next a) (hj : exec j s = .next c) :
    ∃ b, exec j a = .next b := by
  cases hij : exec j a with
  | next b => exact ⟨b, rfl⟩
  | fault r => cases (exec_fault_congr hij fun h => (exec_wr_of_ne hu hi h).symm).symm.trans hj
  | refused r => exact absurd hij (exec_ne_refused j a r)

/-- An operation that stops still stops after one of another unit. -/
theorem runOps_pair_of_fault_right {r : Fault} (hu : i.unitOf ≠ j.unitOf) (hi : exec i s = .next a)
    (hj : exec j s = .fault r) : runOps [i, j] s = .fault r := by
  rw [runOps_pair_of_next hi]
  exact exec_fault_congr hj (exec_wr_of_ne hu hi)

end

/-- Settles O52: by the outcomes of the two operations in the state they start from. -/
theorem operationsOfDifferentUnitsCommute : Obligations.OperationsOfDifferentUnitsCommute := by
  intro i j s hu
  cases hi : exec i s with
  | refused r => exact absurd hi (exec_ne_refused i s r)
  | fault r =>
    rw [runOps_pair_of_fault hi]
    cases hj : exec j s with
    | refused r => exact absurd hj (exec_ne_refused j s r)
    | fault r' =>
      cases r
      cases r'
      exact (runOps_pair_of_fault hj).symm
    | next c => rw [runOps_pair_of_fault_right hu.symm hj hi]
  | next a =>
    cases hj : exec j s with
    | refused r => exact absurd hj (exec_ne_refused j s r)
    | fault r => rw [runOps_pair_of_fault hj, runOps_pair_of_fault_right hu hi hj]
    | next c =>
      obtain ⟨b, hij⟩ := exec_next_after hu hi hj
      obtain ⟨d, hji⟩ := exec_next_after hu.symm hj hi
      rw [runOps_pair_of_next hi, runOps_pair_of_next hj, hij, hji, eq_either_order hi hj hij hji hu]

end Sys2Proof.Machine
end

section
/-! The read port (spec/20_memory.md R52, R53): what each address returns, and that a read has no effect. -/

namespace Sys2Proof.Machine

/-- A field above another in a packed byte. -/
theorem toNat_append_eq_add {m n : Nat} (x : BitVec m) (y : BitVec n) :
    (x ++ y).toNat = x.toNat * 2 ^ n + y.toNat := by
  rw [BitVec.toNat_append, ← Nat.shiftLeft_add_eq_or_of_lt y.isLt, Nat.shiftLeft_eq]

theorem descStat_toNat (u : DescUnit) : (descStat u).toNat = u.pend.toNat + 2 * u.valid.toNat + 4 * u.err.toNat := by
  simp only [descStat, toNat_append_eq_add, BitVec.toNat_ofBool, BitVec.toNat_ofNat]
  omega

theorem sysStat_toNat (y : SysUnit) : (sysStat y).toNat = y.illOp.toNat := by
  simp only [sysStat, toNat_append_eq_add, BitVec.toNat_ofBool, BitVec.toNat_ofNat]
  omega

theorem frStat_toNat (f : FrUnit) :
    (frStat f).toNat = f.state.code.toNat + 8 * f.pend.toNat + 16 * f.cause.code.toNat := by
  simp only [frStat, toNat_append_eq_add, BitVec.toNat_ofBool, BitVec.toNat_ofNat]
  omega

theorem wrStat_toNat (w : WrUnit) : (wrStat w).toNat = w.state.code.toNat + 16 * w.phase.code.toNat := by
  simp only [wrStat, toNat_append_eq_add, BitVec.toNat_ofNat]
  omega

/-- The two bytes of the timer, low and high. -/
theorem toNat_timer_halves (x : Ticks) :
    (x.extractLsb' 0 8).toNat + 256 * (x.extractLsb' 8 8).toNat = x.toNat := by
  have := x.isLt
  simp only [BitVec.extractLsb'_toNat, Nat.shiftRight_eq_div_pow]
  omega

/-- A register of a small range reads as its value. -/
theorem toNat_ofNat_of_le {n : Nat} (h : n ≤ 60) : (BitVec.ofNat 8 n).toNat = n := by
  rw [BitVec.toNat_ofNat]
  omega

theorem crc8Out_eq (c : Byte) : crc8Out c = c ^^^ Config.crc8XorOut := rfl

/-- A listed entry of `fr_buf` below `fr_count` reads as its byte. -/
theorem frEntry_of_read {d i : Nat} {f : FrUnit} {b : Byte} (hi : i < f.count.val) (h : f.buf.read i = some b) :
    frEntry d f i = b := by
  rw [frEntry, if_pos hi, h, Option.getD_some]

theorem wrEntry_of_read {d i : Nat} {w : WrUnit} {b : Byte} (hi : i < w.count.val) (h : w.buf.read i = some b) :
    wrEntry d w i = b := by
  rw [wrEntry, if_pos hi, h, Option.getD_some]

theorem frChk_eq (d : Nat) (f : FrUnit) :
    frChk d f = if f.count = 0 then Config.freeByte d 0x18 else frEntry d f (f.count.val - 1) := by
  simp only [frChk, Fin.ext_iff, Fin.val_zero]

/-- The addresses R53 assigns to nothing, over the whole table. -/
theorem readReg_unmapped : ∀ a : RAddr, (0x0A ≤ a.toNat ∧ a.toNat ≤ 0x0F) ∨ (0x19 ≤ a.toNat ∧ a.toNat ≤ 0x1F) ∨
    (0x27 ≤ a.toNat ∧ a.toNat ≤ 0x3F) ∨ (0x6D ≤ a.toNat ∧ a.toNat ≤ 0x7F) ∨ 0xA8 ≤ a.toNat →
    readReg a = .unmapped := by decide

theorem memRead_of_unmapped (s : State) {a : RAddr} (h : readReg a = .unmapped) : memRead s a = 0x00 := by
  rw [memRead, h, regByte]

/-- Settles O13: the registers stand in the table, a count, a status byte or the timer is recovered from its bytes by
arithmetic, and the buffers and the unassigned addresses are ranges of the table. -/
theorem readPortMap : Obligations.ReadPortMap := by
  intro s
  refine ⟨rfl, rfl, rfl, crc8Out_eq _, rfl, rfl, toNat_ofNat_of_le (by omega), descStat_toNat _, rfl, sysStat_toNat _,
    frStat_toNat _, toNat_ofNat_of_le (s.fr.count_le.trans (by decide)), toNat_timer_halves _, rfl, rfl, rfl, rfl,
    frChk_eq _ _, wrStat_toNat _, toNat_ofNat_of_le (s.wr.expect_le.trans (by decide)),
    toNat_ofNat_of_le s.wr.req_le, toNat_ofNat_of_le s.wr.raw_le,
    toNat_ofNat_of_le (s.wr.count_le.trans (by decide)), rfl, rfl, fun k hk => memRead_frBuf s hk,
    fun k hk => memRead_wrBuf s hk, fun k b hk h => frEntry_of_read hk h, fun k hk => frEntry_of_le _ hk,
    fun k b hk h => wrEntry_of_read hk h, fun k hk => wrEntry_of_le _ hk,
    fun a ha => memRead_of_unmapped s (readReg_unmapped a ha)⟩

/-- The pin `rdata` where the host presents an address. -/
theorem rdata_of_inputs {s : State} {p : PortIn} {rest : List PortIn} (h : s.inputs = p :: rest) :
    rdata s = some (memRead s p.raddr) := by
  rw [rdata, h, List.head?_cons, Option.map_some]

/-- A step is fixed by its action and by the state without this step's pin values. -/
theorem step_congr {s s' : State} (haction : s.action = s'.action) (htake : s.takeInput = s'.takeInput) :
    step s = step s' := by
  rw [step, step, haction, htake]

/-- What a step does with the other pins does not depend on `raddr` (R52, R85). -/
theorem PortIn.action_raddr (p : PortIn) (a : RAddr) : PortIn.action { p with raddr := a } = p.action := rfl

/-- Settles O14. -/
theorem readSeesStateBeforeAndHasNoEffect : Obligations.ReadSeesStateBeforeAndHasNoEffect := by
  intro s p rest a hin
  refine ⟨rdata_of_inputs hin, step_congr ?_ ?_⟩
  · rw [State.action_of_inputs hin, ← PortIn.action_raddr p a]
    exact (State.action_of_inputs rfl).symm
  · rw [State.takeInput_of_inputs hin, State.takeInput_of_inputs rfl]

end Sys2Proof.Machine
end

section
/-! The operation word (spec/30_encoding.md R80 to R83): its two fields, and that the decoder and the encoder agree. -/

namespace Sys2Proof

open Machine

theorem opcOf_append (o : Opcode) (a : Byte) : opcOf (o ++ a) = o := (Laws.EncodedFields.append_fields o a).1
theorem argOf_append (o : Opcode) (a : Byte) : argOf (o ++ a) = a := (Laws.EncodedFields.append_fields o a).2

/-- R80: the two fields make up the word. -/
theorem opcOf_append_argOf (w : OpWord) : opcOf w ++ argOf w = w := by
  apply BitVec.eq_of_toNat_eq
  have := w.isLt
  simp only [toNat_append_eq_add, opcOf, argOf, BitVec.extractLsb'_toNat, Nat.shiftRight_eq_div_pow]
  omega

theorem opcOf_toNat (w : OpWord) : (opcOf w).toNat = w.toNat / 256 := by
  have := w.isLt
  simp only [opcOf, BitVec.extractLsb'_toNat, Nat.shiftRight_eq_div_pow]
  omega

theorem argOf_toNat (w : OpWord) : (argOf w).toNat = w.toNat % 256 := by
  simp only [argOf, BitVec.extractLsb'_toNat, Nat.shiftRight_zero]

/-- R81: the mask 0xF00 keeps the opcode and clears the argument. -/
theorem opcOf_append_zero (w : OpWord) : opcOf w ++ 0#8 = w &&& 0xF00 := by
  have hmask : (0xF00 : OpWord) = BitVec.allOnes 4 ++ 0#8 := rfl
  calc opcOf w ++ 0#8
      = (opcOf w &&& BitVec.allOnes 4) ++ (argOf w &&& 0#8) := by rw [BitVec.and_allOnes, BitVec.and_zero]
    _ = (opcOf w ++ argOf w) &&& 0xF00 := by rw [hmask, BitVec.and_append]
    _ = w &&& 0xF00 := by rw [opcOf_append_argOf]

/-- R83. -/
theorem encode_toNat (i : Instr) : (encode i).toNat = i.opcode.toNat * 256 + i.argByte.toNat :=
  toNat_append_eq_add i.opcode i.argByte

theorem decode_append (o : Opcode) (a : Byte) : decode (o ++ a) = decodeFields o a := by
  rw [decode, opcOf_append, argOf_append]

/-- The opcodes whose operation takes an argument (R82); `argByte_decodeFields` says so of the decoder. -/
abbrev argOpcodes : List Nat := [0x2, 0x4, 0x5, 0x7, 0x9, 0xB, 0xC]

/-- The decoder reads an operation from its own two fields, so these fix it. -/
theorem decodeFields_opcode_argByte (i : Instr) : decodeFields i.opcode i.argByte = i := by
  cases i <;> rfl

section
variable (o : Opcode) (a : Byte)

/-! What the decoder makes of each of the 16 opcodes (R82). -/

theorem opcode_decodeFields : (decodeFields o a).opcode = o := by
  obtain ⟨n, hn⟩ := o
  interval_cases n <;> rfl

theorem argByte_decodeFields : (decodeFields o a).argByte = if o.toNat ∈ argOpcodes then a else 0x00 := by
  obtain ⟨n, hn⟩ := o
  interval_cases n <;> rfl

theorem wf_decodeFields : (decodeFields o a).wf = decide (o.toNat < 0xE) := by
  obtain ⟨n, hn⟩ := o
  interval_cases n <;> rfl

end

theorem decode_encode (i : Instr) : decode (encode i) = i :=
  (decode_append i.opcode i.argByte).trans (decodeFields_opcode_argByte i)

theorem encode_decode (w : OpWord) :
    encode (decode w) = if w.toNat / 256 ∈ argOpcodes then w else w &&& 0xF00 := by
  rw [encode, decode, opcode_decodeFields, argByte_decodeFields, opcOf_toNat]
  split
  · exact opcOf_append_argOf w
  · exact opcOf_append_zero w

/-- Settles O5, by the two fields of the word. -/
theorem decodeEncodeRoundTrip : Obligations.DecodeEncodeRoundTrip :=
  ⟨decode_encode, encode_decode⟩

/-- Settles O1: the word is its two fields side by side. -/
theorem encodingIsOpcodeTimes256PlusArgument : Obligations.EncodingIsOpcodeTimes256PlusArgument := by
  refine ⟨fun v => ?_, rfl, rfl, rfl, rfl, rfl, rfl⟩
  simp only [encode_toNat]
  exact ⟨rfl, rfl, rfl, rfl, rfl, rfl, rfl, rfl, rfl, rfl, rfl, rfl, rfl, rfl, rfl, rfl⟩

/-- Settles O2: the fields of such a word are the two given. -/
theorem opcodeMapDecodesEveryWord : Obligations.OpcodeMapDecodesEveryWord := by
  intro a
  simp only [decode_append]
  exact ⟨rfl, rfl, rfl, rfl, rfl, rfl, rfl, rfl, rfl, rfl, rfl, rfl, rfl, rfl, rfl, rfl⟩

/-- Settles O3, by evaluating the decoder on the ten words. -/
theorem specWordsDecode : Obligations.SpecWordsDecode :=
  ⟨rfl, rfl, rfl, rfl, rfl, rfl, rfl, rfl, rfl, rfl⟩

/-- Settles O4: words of one opcode whose argument is dropped have one encoding after decoding, so they decode alike. -/
theorem argumentBitsUsedAsTheyStandOrIgnored : Obligations.ArgumentBitsUsedAsTheyStandOrIgnored := by
  intro w w' hopc
  have hfields : opcOf w = opcOf w' := BitVec.eq_of_toNat_eq (by rw [opcOf_toNat, opcOf_toNat, hopc])
  refine ⟨fun harg => ?_, fun hnone => ?_⟩
  · rw [decode, argByte_decodeFields, opcOf_toNat, if_pos harg, argOf_toNat]
  · calc decode w = decode (encode (decode w)) := (decode_encode _).symm
      _ = decode (w &&& 0xF00) := by rw [encode_decode, if_neg hnone]
      _ = decode (w' &&& 0xF00) := by rw [← opcOf_append_zero, hfields, opcOf_append_zero]
      _ = decode (encode (decode w')) := by rw [encode_decode, if_neg (hopc ▸ hnone)]
      _ = decode w' := decode_encode _

end Sys2Proof
end

section
/-! The statements of the assembler (spec/30_encoding.md R92) and the pseudo-operations (R93). -/

namespace Sys2Proof

open Machine

/-- The opcode of a mnemonic (R82, R92); `Statement.toInstr_eq` ties it to the assembler. -/
def Mnemonic.opcode : Mnemonic → Opcode
  | .nop => 0x0
  | .chkClr => 0x1
  | .chkAdd => 0x2
  | .crc8Init => 0x3
  | .crc8Upd => 0x4
  | .escPut => 0x5
  | .descClr => 0x6
  | .descPut => 0x7
  | .frStart => 0x8
  | .frByte => 0x9
  | .frTick => 0xA
  | .wrStart => 0xB
  | .wrByte => 0xC
  | .wrEnd => 0xD

theorem Mnemonic.opcode_lt (m : Mnemonic) : m.opcode.toNat < 0xE := by cases m <;> decide

theorem Mnemonic.opcode_mem_argOpcodes (m : Mnemonic) : m.opcode.toNat ∈ argOpcodes ↔ m.takesArg = true := by
  cases m <;> decide

theorem Mnemonic.takesArg_iff (m : Mnemonic) :
    m.takesArg = true ↔ m ∈ [Mnemonic.chkAdd, .crc8Upd, .escPut, .descPut, .frByte, .wrStart, .wrByte] := by
  cases m <;> decide

/-- A statement stands for an operation exactly when it is well formed, and then for the one that the decoder reads from
the mnemonic's opcode and the number. -/
theorem Statement.toInstr_eq (t : Statement) :
    t.toInstr = if t.wf then some (decodeFields t.mnemonic.opcode (BitVec.ofNat 8 (t.arg.getD 0))) else none := by
  obtain ⟨m, arg⟩ := t
  cases arg with
  | none => cases m <;> rfl
  | some v =>
    have hwf : Statement.wf ⟨m, some v⟩ = (m.takesArg && v < 256) := rfl
    rw [hwf]
    by_cases hv : v < 256
    · rw [decide_eq_true hv, Bool.and_true]
      cases m <;> simp [Statement.toInstr, Mnemonic.takesArg, hv] <;> rfl
    · rw [decide_eq_false hv, Bool.and_false]
      cases m <;> simp [Statement.toInstr, hv]

theorem Statement.wf_iff (t : Statement) :
    t.wf = true ↔ (t.mnemonic.takesArg = true ∧ ∃ v < 256, t.arg = some v) ∨
      (t.mnemonic.takesArg ≠ true ∧ t.arg = none) := by
  cases h : t.arg <;> simp [Statement.wf, h]

/-- In a well-formed statement the number fits the argument byte, and it is 0 or absent where none is due. -/
theorem Statement.argByte_of_wf {t : Statement} (h : t.wf = true) :
    (decodeFields t.mnemonic.opcode (BitVec.ofNat 8 (t.arg.getD 0))).argByte.toNat = t.arg.getD 0 := by
  rw [argByte_decodeFields]
  simp only [Mnemonic.opcode_mem_argOpcodes]
  rcases t.wf_iff.1 h with ⟨htakes, v, hv, harg⟩ | ⟨htakes, harg⟩
  · rw [if_pos htakes, harg, Option.getD_some, BitVec.toNat_ofNat, Nat.mod_eq_of_lt hv]
  · rw [if_neg htakes, harg]
    rfl

/-- Settles O6, from the one equation of `Statement.toInstr`. -/
theorem statementsStandForDefinedOperations : Obligations.StatementsStandForDefinedOperations := by
  intro t
  have hiff : t.wf = true ↔ t.toInstr.isSome = true := by
    rw [t.toInstr_eq]
    cases t.wf <;> simp
  refine ⟨?_, hiff, fun i hi => ?_⟩
  · rw [← hiff, t.wf_iff]
    simp only [ne_eq, Mnemonic.takesArg_iff]
  · have hwf : t.wf = true := hiff.2 (by rw [hi]; rfl)
    rw [t.toInstr_eq, if_pos hwf, Option.some.injEq] at hi
    have hopc : i.opcode = t.mnemonic.opcode := hi ▸ opcode_decodeFields _ _
    have harg : i.argByte.toNat = t.arg.getD 0 := hi ▸ Statement.argByte_of_wf hwf
    have hdiv : (encode i).toNat / 256 = t.mnemonic.opcode.toNat := by
      rw [encode_toNat, hopc]
      omega
    have hmod : (encode i).toNat % 256 = t.arg.getD 0 := by
      rw [encode_toNat, ← harg]
      omega
    refine ⟨?_, ?_, hmod, fun hnone => ?_, fun v hv => ?_⟩
    · rw [← hi, wf_decodeFields]
      exact decide_eq_true t.mnemonic.opcode_lt
    · rw [hdiv]
      cases t.mnemonic <;> decide
    · rw [hnone] at harg
      exact BitVec.eq_of_toNat_eq harg
    · rw [harg, hv, Option.getD_some]

/-- R85, R93: the pins that present an operation make the step execute it. -/
theorem ofInstr_action (i : Instr) : (PortIn.ofInstr i).action = .execute i := by
  rw [PortIn.action_of_opValid rfl rfl]
  exact congrArg PortAction.execute (decode_encode i)

/-- Of the steps that ESC.STR takes for one byte, the operation alone has `op_valid` 1; so for DESC.STR. -/
theorem escStr_filter_opValid (bs : List Byte) :
    (Pseudo.escStr bs).expand.filter (·.opValid) = bs.map (fun b => PortIn.ofInstr (.escPut b)) := by
  rw [Pseudo.expand, List.filter_flatMap, List.map_eq_flatMap]
  rfl

theorem descStr_filter_opValid (bs : List Byte) :
    (Pseudo.descStr bs).expand.filter (·.opValid) = bs.map (fun b => PortIn.ofInstr (.descPut b)) := by
  rw [Pseudo.expand, List.filter_flatMap, List.map_eq_flatMap]
  rfl

/-! What an operation's step and a read step drive on the pins; the word as a number, R83. -/

@[simp] theorem ofInstr_rst (i : Instr) : (PortIn.ofInstr i).rst = false := rfl
@[simp] theorem ofInstr_opValid (i : Instr) : (PortIn.ofInstr i).opValid = true := rfl
@[simp] theorem ofInstr_op_toNat (i : Instr) :
    (PortIn.ofInstr i).op.toNat = i.opcode.toNat * 256 + i.argByte.toNat := encode_toNat i
@[simp] theorem ofRead_rst (a : RAddr) : (PortIn.ofRead a).rst = false := rfl
@[simp] theorem ofRead_opValid (a : RAddr) : (PortIn.ofRead a).opValid = false := rfl
@[simp] theorem ofRead_raddr (a : RAddr) : (PortIn.ofRead a).raddr = a := rfl

/-- Settles O7, row by row of R93. -/
theorem pseudoOperationExpansions : Obligations.PseudoOperationExpansions := by
  intro bs d0 d1 t a
  refine ⟨?_, rfl, ?_, ?_, ?_, ?_, ?_, ?_, ?_, rfl, rfl, ofInstr_action⟩
  case refine_1 => rw [Pseudo.expand, List.map_cons, List.map_map]; rfl
  case refine_2 => rw [escStr_filter_opValid, List.map_map]; rfl
  case refine_3 => rw [descStr_filter_opValid, List.map_map]; rfl
  case refine_4 => rw [Pseudo.expand, List.map_flatMap]; simp [Instr.opcode, Instr.argByte]
  case refine_5 => rw [Pseudo.expand, List.map_flatMap]; simp [Instr.opcode, Instr.argByte]
  case refine_6 => rw [Pseudo.expand, List.map_map]; rfl
  case refine_7 => rw [Pseudo.expand, List.map_replicate]
  case refine_8 => rw [Pseudo.expand, List.map_map]; rfl

end Sys2Proof
end

section
/-! Where a step has nothing to do, and that every operation completes under the invariant (spec/30_encoding.md R85). -/

namespace Sys2Proof.Machine

/-- Settles O10: the action is to do nothing, and there are no pin values to use up. -/
theorem stepWithoutInputExecutesNothing : Obligations.StepWithoutInputExecutesNothing := by
  intro s hin
  have haction : s.action = .nothing := by rw [State.action, hin]
  have htake : s.takeInput = s := by rw [State.takeInput, hin, List.tail_nil, ← hin]
  rw [step_nothing haction, htake, State.endStep]

/-- The one stop of `exec` is out of the invariant's reach (log 7). -/
theorem exec_completes {s : State} (hinv : s.Inv) (i : Instr) : ∃ t, exec i s = .next t := by
  cases he : exec i s with
  | next t => exact ⟨t, rfl⟩
  | refused r => exact absurd he (exec_ne_refused i s r)
  | fault r =>
    obtain ⟨b, -, hnone⟩ := exec_eq_fault.1 ⟨r, he⟩
    obtain ⟨hreading, hout⟩ := wrByte_eq_none.1 hnone
    obtain ⟨-, -, hwr⟩ := hinv
    have hbounds := WrUnit.bounds_of_inv hwr hreading
    omega

/-- Settles O53, by the action of the step. -/
theorem everyOperationCompletes : Obligations.EveryOperationCompletes := by
  intro s hinv
  refine ⟨exec_completes hinv, ?_⟩
  cases ha : s.action with
  | reset => exact ⟨_, step_reset ha⟩
  | nothing => exact ⟨_, step_nothing ha⟩
  | execute i =>
    obtain ⟨t, ht⟩ := exec_completes (s := s.takeInput) hinv i
    exact ⟨_, step_execute ha ht⟩

end Sys2Proof.Machine
end

section
/-! A read of whole words (spec/44_word_reader.md R174 to R178, spec/30_encoding.md R75): WR.BYTE at each phase of a good
group, then group by group. -/

namespace Sys2Proof.Machine

/-! What a good group leaves in each field of the unit. -/

section
variable (w : WrUnit) (h : w.count.val + 2 < Config.wrBufCap + 1)

theorem passed_state : (w.passed h).state = if w.expect.val ≤ w.count.val + 2 then .done else w.state := by
  unfold WrUnit.passed wrComplete
  split <;> rfl

@[simp] theorem passed_expect : (w.passed h).expect = w.expect := by unfold WrUnit.passed wrComplete; split <;> rfl
@[simp] theorem passed_req : (w.passed h).req = w.req := by unfold WrUnit.passed wrComplete; split <;> rfl
@[simp] theorem passed_raw : (w.passed h).raw = w.raw := by unfold WrUnit.passed wrComplete; split <;> rfl
@[simp] theorem passed_phase : (w.passed h).phase = .first := by unfold WrUnit.passed wrComplete; split <;> rfl
@[simp] theorem passed_count : (w.passed h).count.val = w.count.val + 2 := by
  unfold WrUnit.passed wrComplete; split <;> rfl

end

section
variable {w : WrUnit} (hs : w.state = .reading)
include hs

/-- A byte within the request is counted before the phase is looked at (R174). -/
theorem wrByte_of_raw_lt (b : Byte) (hraw : w.raw.val < w.req.val) :
    ∃ h, wrByte b w = (wrPhaseByte b (w.counted h)).map wrAutoExhaust := by
  rw [wrByte_of_reading b hs]
  rcases wrReadingByte_cases b w with h | ⟨h60, -⟩
  · exact h
  · have := w.req_le
    omega

/-- A data byte with more requested bytes to come (R174, R175). -/
theorem wrByte_first (b : Byte) (hp : w.phase = .first) (hraw : w.raw.val + 1 < w.req.val) :
    ∃ h, wrByte b w = some { w.counted h with d0 := b, phase := .second } := by
  obtain ⟨h, e⟩ := wrByte_of_raw_lt hs b (by omega)
  refine ⟨h, ?_⟩
  rw [e, wrPhaseByte, counted_phase, hp, Option.map_some, wrAutoExhaust, if_neg]
  exact fun hlast => hraw.ne (congrArg Fin.val hlast.2)

theorem wrByte_second (b : Byte) (hp : w.phase = .second) (hraw : w.raw.val + 1 < w.req.val) :
    ∃ h, wrByte b w = some { w.counted h with d1 := b, phase := .crc } := by
  obtain ⟨h, e⟩ := wrByte_of_raw_lt hs b (by omega)
  refine ⟨h, ?_⟩
  rw [e, wrPhaseByte, counted_phase, hp, Option.map_some, wrAutoExhaust, if_neg]
  exact fun hlast => hraw.ne (congrArg Fin.val hlast.2)

/-- The CRC byte of a good group, at the end of the request only if the read then has all it expects (R177, R178). -/
theorem wrByte_crc (hp : w.phase = .crc) (hc : w.count.val ≤ 38) (hraw : w.raw.val < w.req.val)
    (hlast : w.raw.val + 1 = w.req.val → w.expect.val ≤ w.count.val + 2) :
    ∃ h hc, wrByte (crc8Word w.d0 w.d1) w = some ((w.counted h).passed hc) := by
  obtain ⟨h, e⟩ := wrByte_of_raw_lt hs (crc8Word w.d0 w.d1) hraw
  have hpassed : ∃ hc, wrPhaseByte (crc8Word w.d0 w.d1) (w.counted h) = some ((w.counted h).passed hc) := by
    rcases wrPhaseByte_cases (crc8Word w.d0 w.d1) (w.counted h) with
      ⟨hp', -⟩ | ⟨hp', -⟩ | ⟨-, hne, -⟩ | ⟨-, -, hgood⟩ | ⟨-, -, hfull, -⟩
    · cases hp.symm.trans hp'
    · cases hp.symm.trans hp'
    · exact absurd rfl hne
    · exact hgood
    · exact absurd hc (Nat.not_le.2 hfull)
  obtain ⟨hc, hpassed⟩ := hpassed
  refine ⟨h, hc, ?_⟩
  rw [e, hpassed, Option.map_some, wrAutoExhaust, if_neg]
  rintro ⟨hreading, hend⟩
  rw [passed_raw, passed_req] at hend
  rw [passed_state, counted_expect, counted_count, if_pos (hlast (congrArg Fin.val hend))] at hreading
  cases hreading

end

/-- A read of `n` data bytes that has taken the groups of `ws`, whole, and no byte more (R75, R177, R178). -/
structure WrUnit.HasRead (w : WrUnit) (n : Nat) (ws : List (Byte × Byte)) : Prop where
  state_eq : w.state = if 2 * ws.length < n then .reading else .done
  phase_eq : w.phase = .first
  expect_eq : w.expect.val = n
  req_eq : w.req.val = n / 2 * 3
  raw_eq : w.raw.val = 3 * ws.length
  count_eq : w.count.val = 2 * ws.length
  filled : w.buf.filledTo w.count.val
  bytes_eq : w.buf.bytes = wordBytes ws

/-- An accepted WR.START of at least one word (R170, R173). -/
theorem wrBegin_hasRead {e : Fin (Config.wrBufCap + 1)} (h : 2 ≤ e.val) : (wrBegin e).HasRead e.val [] := by
  have hne : e.val / 2 ≠ 0 := by omega
  have hbegin : wrBegin e = wrFresh .reading e (requestCount e) := by rw [wrBegin, if_neg hne]
  have hpos : 2 * ([] : List (Byte × Byte)).length < e.val := by simp; omega
  rw [hbegin]
  exact ⟨(if_pos hpos).symm, rfl, rfl, rfl, rfl, rfl, rfl, rfl⟩

/-- WR over a sequence of raw bytes, stopping where WR.BYTE does. -/
def wrBytes (bs : List Byte) (w : WrUnit) : Option WrUnit := bs.foldlM (fun v b => wrByte b v) w

theorem wrBytes_append {bs cs : List Byte} {w v : WrUnit} (h : wrBytes bs w = some v) :
    wrBytes (bs ++ cs) w = wrBytes cs v := by
  rw [wrBytes, List.foldlM_append]
  exact congrArg (· >>= _) h

/-- The operations WR.BYTE of a sequence do to the block what `wrBytes` does to WR. -/
theorem runOps_wrByte {bs : List Byte} {s : State} {v : WrUnit} (h : wrBytes bs s.wr = some v) :
    runOps (bs.map Instr.wrByte) s = .next { s with wr := v } := by
  induction bs generalizing s with
  | nil => cases h; rfl
  | cons b bs ih =>
    rw [wrBytes, List.foldlM_cons] at h
    obtain ⟨w, hw, hrest⟩ := Option.bind_eq_some_iff.1 h
    rw [List.map_cons, runOps, exec_wrByte_of_some hw]
    exact ih (s := { s with wr := w }) hrest

theorem wordBytes_append_singleton (ws : List (Byte × Byte)) (d0 d1 : Byte) :
    wordBytes (ws ++ [(d0, d1)]) = wordBytes ws ++ [d0] ++ [d1] := by
  simp [wordBytes]

/-- WR between the data bytes of a group and its CRC byte. -/
def WrUnit.withData (w : WrUnit) (d0 d1 : Byte) (h : w.raw.val + 2 < Config.wrReqCap + 1) : WrUnit :=
  { w with raw := ⟨w.raw.val + 2, h⟩, phase := .crc, d0 := d0, d1 := d1 }

theorem wrBytes_data {w : WrUnit} (hs : w.state = .reading) (hp : w.phase = .first)
    (hraw : w.raw.val + 2 < w.req.val) (d0 d1 : Byte) : ∃ h, wrBytes [d0, d1] w = some (w.withData d0 d1 h) := by
  have hreq := w.req_le
  obtain ⟨h0, e0⟩ := wrByte_first hs d0 hp (by omega)
  obtain ⟨h1, e1⟩ := wrByte_second (w := { w.counted h0 with d0 := d0, phase := .second }) hs d1 rfl hraw
  refine ⟨by simp; omega, ?_⟩
  rw [wrBytes, List.foldlM_cons, e0]
  exact congrArg (· >>= some) e1

/-- One good group more; it is not the last of a read of odd length, which ends short there. -/
theorem wrBytes_group {w : WrUnit} {n : Nat} {ws : List (Byte × Byte)} (h : w.HasRead n ws)
    (hn : 2 * ws.length + 2 = n ∨ 2 * ws.length + 3 < n) (d0 d1 : Byte) :
    ∃ v, wrBytes (i2cGroup d0 d1) w = some v ∧ v.HasRead n (ws ++ [(d0, d1)]) := by
  obtain ⟨hstate, hphase, hexpect, hreq, hraw, hcount, hfilled, hbytes⟩ := h
  have hle := w.expect_le
  have hlen : (ws ++ [(d0, d1)]).length = ws.length + 1 := List.length_append
  rw [if_pos (by omega)] at hstate
  obtain ⟨hdata, edata⟩ := wrBytes_data hstate hphase (by omega) d0 d1
  obtain ⟨hcrc, hc, ecrc⟩ := wrByte_crc (w := w.withData d0 d1 hdata) hstate rfl (by show w.count.val ≤ 38; omega)
    (by show w.raw.val + 2 < w.req.val; omega)
    (by show w.raw.val + 2 + 1 = w.req.val → w.expect.val ≤ w.count.val + 2; omega)
  refine ⟨_, (wrBytes_append (cs := [crc8Word d0 d1]) edata).trans (congrArg (· >>= some) ecrc), ?_⟩
  refine ⟨?_, passed_phase _ _, ?_, ?_, ?_, ?_, ?_, ?_⟩
  · rw [passed_state, hlen]
    show (if w.expect.val ≤ w.count.val + 2 then WrState.done else w.state) = _
    rw [hexpect, hcount, hstate]
    by_cases hdone : n ≤ 2 * ws.length + 2
    · rw [if_pos hdone, if_neg (by omega)]
    · rw [if_neg hdone, if_pos (by omega)]
  · rw [passed_expect]; exact hexpect
  · rw [passed_req]; exact hreq
  · rw [passed_raw, hlen]
    show w.raw.val + 2 + 1 = _
    omega
  · rw [passed_count, hlen]
    show w.count.val + 2 = _
    omega
  · rw [passed_count, passed_buf]
    exact Memory.filledTo_write d1 (Memory.filledTo_write d0 hfilled)
  · rw [passed_buf, wordBytes_append_singleton, ← hbytes]
    show ((w.buf.write w.count.val d0).write (w.count.val + 1) d1).bytes = _
    rw [Memory.bytes_write d1 (Memory.filledTo_write d0 hfilled), Memory.bytes_write d0 hfilled]

/-- Groups up to the end of the read, or to anywhere two data bytes before it. -/
theorem wrBytes_i2cReply {more ws : List (Byte × Byte)} {w : WrUnit} {n : Nat} (h : w.HasRead n ws)
    (hn : 2 * (ws.length + more.length) = n ∨ 2 * (ws.length + more.length) + 1 < n) :
    ∃ v, wrBytes (i2cReply more) w = some v ∧ v.HasRead n (ws ++ more) := by
  induction more generalizing ws w with
  | nil => exact ⟨w, rfl, by rwa [List.append_nil]⟩
  | cons x more ih =>
    rw [List.length_cons] at hn
    obtain ⟨u, eu, hu⟩ := wrBytes_group h (by omega) x.1 x.2
    obtain ⟨v, ev, hv⟩ := ih hu (by rw [List.length_append, List.length_singleton]; omega)
    refine ⟨v, (wrBytes_append eu).trans ev, ?_⟩
    rwa [List.append_assoc] at hv

/-- The data bytes of the groups taken stand at the read port in wire order (R53, R56). -/
theorem memRead_of_hasRead {s : State} {n : Nat} {ws : List (Byte × Byte)} (h : s.wr.HasRead n ws) {j : Nat}
    (hj : j < (wordBytes ws).length) : memRead s (BitVec.ofNat 8 (0x80 + j)) = (wordBytes ws)[j] := by
  have hlt : j < s.wr.count.val := by
    rwa [← h.bytes_eq, Memory.bytes_length, Memory.length_of_filledTo h.filled] at hj
  have hle := s.wr.count_le
  have hentry := wrEntry_of_filledTo s.draws h.filled hlt
  rw [h.bytes_eq, List.getElem?_eq_getElem hj, Option.some.injEq] at hentry
  rw [memRead_wrBuf s (by omega), hentry]

/-- A number up to WR_BUF_CAP is accepted as the expected length (R172). -/
theorem expectedLength_ofNat {n : Nat} (h : n ≤ 40) : ∃ e, expectedLength (BitVec.ofNat 8 n) = some e ∧ e.val = n :=
  ⟨⟨n, Nat.lt_succ_of_le h⟩, expectedLength_eq_some.2 (toNat_ofNat_of_le (by omega)), rfl⟩

/-- Settles O42, by induction on the words. -/
theorem wordReplyRoundTrip : Obligations.WordReplyRoundTrip := by
  intro s words hs hne hlen
  have hpos : 0 < words.length := List.length_pos_of_ne_nil hne
  obtain ⟨e, he, hval⟩ := expectedLength_ofNat (n := 2 * words.length) (by omega)
  have hbegin : (wrBegin e).HasRead (2 * words.length) [] := hval ▸ wrBegin_hasRead (by omega)
  obtain ⟨v, ev, hv⟩ := wrBytes_i2cReply hbegin (more := words) (.inl (by rw [List.length_nil, Nat.zero_add]))
  rw [List.nil_append] at hv
  refine ⟨_, _, exec_wrStart_of_length hs he, ?_, runOps_wrByte ev, rfl, ?_, ?_, hv.count_eq, fun j hj => ?_⟩
  · show (BitVec.ofNat 8 (wrBegin e).req.val).toNat = _
    rw [hbegin.req_eq, toNat_ofNat_of_le (by omega)]
    omega
  · exact hv.state_eq.trans (if_neg (by omega))
  · refine Fin.ext ?_
    rw [hv.raw_eq, hv.req_eq]
    omega
  · exact memRead_of_hasRead hv hj

end Sys2Proof.Machine
end

section
/-! FR.BYTE by state (spec/43_frame_sync.md R142), and that FR's deadline aside it does not depend on the timer (R163):
an attempt with ticks between its bytes is the attempt without them. -/

namespace Sys2Proof.Machine

section
variable (d : Nat) (b : Byte) {f : FrUnit}

theorem frByte_of_awaitHeader (hs : f.state = .awaitHeader) :
    frByte d b f = if b = hdr then { f with state := .reading } else raiseProtocolError .badHeader f := by
  rw [frByte, hs]

theorem frByte_of_reading (hs : f.state = .reading) : frByte d b f = frReadingByte d b f := by
  rw [frByte, hs]

theorem frByte_of_inactive (hs : f.state.active = false) : frByte d b f = f := by
  rcases FrState.active_eq_false.1 hs with h | h | h | h <;> rw [frByte, h]

end

@[simp] theorem frUnstuff_timer (b : Byte) (f : FrUnit) : (frUnstuff b f).timer = f.timer := by
  unfold frUnstuff
  split
  · exact frStore_timer _ _
  · rfl

@[simp] theorem frReadingByte_timer (d : Nat) (b : Byte) (f : FrUnit) : (frReadingByte d b f).timer = f.timer := by
  unfold frReadingByte
  split
  · exact frUnstuff_timer b f
  · split
    · rfl
    · split
      · exact frFinalise_timer d f
      · exact frStore_timer b f

/-- FR.BYTE does not touch the timer (R163). -/
@[simp] theorem frByte_timer (d : Nat) (b : Byte) (f : FrUnit) : (frByte d b f).timer = f.timer := by
  cases hs : f.state
  case awaitHeader => rw [frByte_of_awaitHeader d b hs]; split <;> rfl
  case reading => rw [frByte_of_reading d b hs]; exact frReadingByte_timer d b f
  all_goals rw [frByte_of_inactive d b (by rw [hs]; rfl)]

/-- FR but for its timer. -/
def FrUnit.untimed (f : FrUnit) : FrUnit := { f with timer := 0 }

@[simp] theorem untimed_state (f : FrUnit) : f.untimed.state = f.state := rfl
@[simp] theorem untimed_cause (f : FrUnit) : f.untimed.cause = f.cause := rfl
@[simp] theorem untimed_pend (f : FrUnit) : f.untimed.pend = f.pend := rfl
@[simp] theorem untimed_count (f : FrUnit) : f.untimed.count = f.count := rfl
@[simp] theorem untimed_buf (f : FrUnit) : f.untimed.buf = f.buf := rfl

section
variable (d : Nat) (b : Byte) (f : FrUnit)

theorem frStore_untimed : frStore b f.untimed = (frStore b f).untimed := by
  by_cases h : f.count.val < Config.frBufCap
  · have h' : f.untimed.count.val < Config.frBufCap := h
    rw [frStore, frStore, dif_pos h, dif_pos h']
    rfl
  · have h' : ¬ f.untimed.count.val < Config.frBufCap := h
    rw [frStore, frStore, dif_neg h, dif_neg h']
    rfl

theorem frFinalise_untimed : frFinalise d f.untimed = (frFinalise d f).untimed := by
  simp only [frFinalise, apply_ite FrUnit.untimed]
  rfl

theorem frUnstuff_untimed : frUnstuff b f.untimed = (frUnstuff b f).untimed := by
  unfold frUnstuff
  cases unstuffMap b with
  | some v => exact frStore_untimed v { f with pend := false }
  | none => rfl

theorem frReadingByte_untimed : frReadingByte d b f.untimed = (frReadingByte d b f).untimed := by
  simp only [frReadingByte, apply_ite FrUnit.untimed, ← frUnstuff_untimed, ← frFinalise_untimed, ← frStore_untimed]
  rfl

/-- What FR.BYTE does to the rest of FR does not depend on the timer. -/
theorem frByte_untimed : frByte d b f.untimed = (frByte d b f).untimed := by
  cases hs : f.state
  case awaitHeader =>
    rw [frByte_of_awaitHeader d b hs, frByte_of_awaitHeader d b (f := f.untimed) hs, apply_ite FrUnit.untimed]
    rfl
  case reading =>
    rw [frByte_of_reading d b hs, frByte_of_reading d b (f := f.untimed) hs]
    exact frReadingByte_untimed d b f
  all_goals
    have hend : f.state.active = false := by rw [hs]; rfl
    rw [frByte_of_inactive d b hend, frByte_of_inactive d b (f := f.untimed) hend]

end

/-- A tick before the deadline moves the timer alone, by at most one (R162). -/
theorem frTick_of_timer_lt {f : FrUnit} (h : f.timer.toNat < 200) :
    (frTick f).untimed = f.untimed ∧ (frTick f).timer.toNat ≤ f.timer.toNat + 1 := by
  unfold frTick
  split
  · rw [if_neg (by simp; omega)]
    refine ⟨rfl, ?_⟩
    show (f.timer + 1).toNat ≤ _
    rw [BitVec.toNat_add]
    exact Nat.mod_le _ _
  · exact ⟨rfl, Nat.le_succ _⟩

/-- FR over a sequence of wire bytes. -/
def frDeliver (d : Nat) (bs : List Byte) (f : FrUnit) : FrUnit := bs.foldl (fun g b => frByte d b g) f

theorem frDeliver_cons (d : Nat) (b : Byte) (bs : List Byte) (f : FrUnit) :
    frDeliver d (b :: bs) f = frDeliver d bs (frByte d b f) := rfl

theorem frDeliver_append (d : Nat) (bs cs : List Byte) (f : FrUnit) :
    frDeliver d (bs ++ cs) f = frDeliver d cs (frDeliver d bs f) := List.foldl_append

/-- Bytes with ticks between them, all within the deadline, do to the block what the bytes alone do to FR, but for the
timer (R162, R163). -/
theorem runOps_frBytes_and_ticks {es : List Instr} {s : State} (hes : ∀ i ∈ es, i = .frTick ∨ ∃ b, i = .frByte b)
    (hticks : s.fr.timer.toNat + es.count .frTick ≤ 200) :
    ∃ f, runOps es s = .next { s with fr := f } ∧
      f.untimed = frDeliver s.draws (es.filterMap Instr.frWireByte) s.fr.untimed := by
  induction es generalizing s with
  | nil => exact ⟨s.fr, rfl, rfl⟩
  | cons i es ih =>
    obtain ⟨hi, hrest⟩ := List.forall_mem_cons.1 hes
    rcases hi with rfl | ⟨b, rfl⟩
    · rw [List.count_cons_self] at hticks
      obtain ⟨hsame, htimer⟩ := frTick_of_timer_lt (f := s.fr) (by omega)
      obtain ⟨f, hf, hu⟩ := ih (s := { s with fr := frTick s.fr }) hrest
        (by show (frTick s.fr).timer.toNat + _ ≤ _; omega)
      exact ⟨f, hf, hu.trans (congrArg (frDeliver s.draws _) hsame)⟩
    · rw [List.count_cons_of_ne (by simp)] at hticks
      obtain ⟨f, hf, hu⟩ := ih (s := { s with fr := frByte s.draws b s.fr }) hrest
        (by show (frByte s.draws b s.fr).timer.toNat + _ ≤ _; rwa [frByte_timer])
      exact ⟨f, hf, hu.trans (congrArg (frDeliver s.draws _) (frByte_untimed s.draws b s.fr).symm)⟩

end Sys2Proof.Machine
end

section
/-! A well-formed reply at FR (spec/30_encoding.md R72, spec/43_frame_sync.md R145 to R159): the stuffed bytes are
accumulated one by one, and the closing header finds a good frame. -/

namespace Sys2Proof.Machine

/-- An attempt in READING between two bytes of the frame, with `bs` accumulated. -/
structure FrUnit.HasRead (f : FrUnit) (bs : List Byte) : Prop where
  state_eq : f.state = .reading
  cause_eq : f.cause = .none
  pend_eq : f.pend = false
  filled : f.buf.filledTo f.count.val
  bytes_eq : f.buf.bytes = bs

theorem FrUnit.HasRead.count_eq {f : FrUnit} {bs : List Byte} (h : f.HasRead bs) : f.count.val = bs.length := by
  rw [← h.bytes_eq, Memory.bytes_length, Memory.length_of_filledTo h.filled]

/-- The opening header begins the accumulation with nothing (R143). -/
theorem frByte_hdr_frFresh (d : Nat) : (frByte d hdr frFresh).HasRead [] := by
  rw [frByte_of_awaitHeader d hdr frFresh_state, if_pos rfl]
  exact ⟨rfl, rfl, rfl, rfl, rfl⟩

section
variable {f : FrUnit} {bs : List Byte} (h : f.HasRead bs)
include h

/-- `store(v)` below FR_BUF_CAP (R150). -/
theorem frStore_hasRead (hlen : bs.length < 45) (v : Byte) : (frStore v f).HasRead (bs ++ [v]) := by
  have hcount := h.count_eq
  rcases frStore_cases v f with ⟨_, e⟩ | ⟨hfull, -⟩
  · rw [e]
    exact ⟨h.state_eq, h.cause_eq, h.pend_eq, Memory.filledTo_write v h.filled,
      (Memory.bytes_write v h.filled).trans (congrArg (· ++ [v]) h.bytes_eq)⟩
  · simp at hfull
    omega

/-- A byte that is neither the marker nor the header is stored as it is (R148). -/
theorem frByte_verbatim (d : Nat) {b : Byte} (hescb : b ≠ escb) (hhdr : b ≠ hdr) : frByte d b f = frStore b f := by
  rw [frByte_of_reading d b h.state_eq, frReadingByte, h.pend_eq, if_neg (by simp), if_neg hescb, if_neg hhdr]

/-- The closing header runs the checks (R153). -/
theorem frByte_hdr (d : Nat) : frByte d hdr f = frFinalise d f := by
  rw [frByte_of_reading d hdr h.state_eq, frReadingByte, h.pend_eq, if_neg (by simp), if_neg (by decide), if_pos rfl]

/-- The marker and a replacement byte store the byte that was replaced (R146, R147). -/
theorem frDeliver_escape (d : Nat) {b x : Byte} (hx : unstuffMap x = some b) : frDeliver d [escb, x] f = frStore b f := by
  have hmarker : frByte d escb f = { f with pend := true } := by
    rw [frByte_of_reading d escb h.state_eq, frReadingByte, h.pend_eq, if_neg (by simp), if_pos rfl]
  have hsame : { f with pend := false } = f := by
    rw [← h.pend_eq]
  have hreplace : frByte d x { f with pend := true } = frUnstuff x { f with pend := true } := by
    rw [frByte_of_reading d x (f := { f with pend := true }) h.state_eq, frReadingByte, if_pos rfl]
  calc frDeliver d [escb, x] f = frUnstuff x { f with pend := true } := by
        rw [frDeliver_cons, hmarker, frDeliver_cons, hreplace]; rfl
    _ = frStore b { f with pend := false } := by rw [frUnstuff, hx]
    _ = frStore b f := by rw [hsame]

/-- What ESC.PUT makes of a byte is accumulated as that byte (R120, R146 to R148). -/
theorem frDeliver_escPut (d : Nat) (hlen : bs.length < 45) (b : Byte) :
    (frDeliver d (escBytes (escPut b)) f).HasRead (bs ++ [b]) := by
  have hstore : frDeliver d (escBytes (escPut b)) f = frStore b f := by
    cases hb : stuffMap b with
    | some x =>
      have hbytes : escBytes (escPut b) = [escb, x] := by rw [escPut, hb]; rfl
      rw [hbytes, frDeliver_escape h d (unstuffMap_stuffMap hb)]
    | none =>
      obtain ⟨-, -, hescb, hhdr⟩ := stuffMap_eq_none.1 hb
      have hbytes : escBytes (escPut b) = [b] := by rw [escPut, hb]; rfl
      rw [hbytes]
      exact frByte_verbatim h d hescb hhdr
  rw [hstore]
  exact frStore_hasRead h hlen b

end

/-- The wire form of a byte sequence is accumulated as that sequence (R121, R168). -/
theorem frDeliver_stuff (d : Nat) {bs acc : List Byte} {f : FrUnit} (h : f.HasRead acc)
    (hlen : acc.length + bs.length ≤ 45) : (frDeliver d (stuff bs) f).HasRead (acc ++ bs) := by
  induction bs generalizing acc f with
  | nil => rw [List.append_nil]; exact h
  | cons b bs ih =>
    rw [List.length_cons] at hlen
    have hnext := frDeliver_escPut h d (by omega) b
    have hrest := ih hnext (by rw [List.length_append, List.length_singleton]; omega)
    rw [stuff, List.flatMap_cons, frDeliver_append]
    rwa [List.append_assoc] at hrest

/-- The end-of-frame checks accept a good frame (R154); the converse of `goodFrame_of_checks`. -/
theorem frFinalise_of_goodFrame (d : Nat) {f : FrUnit} (hf : f.buf.filledTo f.count.val) (hgood : f.goodFrame) :
    frFinalise d f = { f with state := .complete } := by
  obtain ⟨h5, hlen, hchk⟩ := hgood
  have hl : f.buf.bytes.length = f.count.val := by rw [Memory.bytes_length, Memory.length_of_filledTo hf]
  rw [← frEntry_of_filledTo d hf (by omega), Option.map_some, Option.some.injEq] at hlen
  rw [List.getLast?_eq_getElem?, List.dropLast_eq_take, hl, ← frBytes_of_filledTo d hf (Nat.sub_le _ 1),
    ← frEntry_of_filledTo d hf (by omega), Option.some.injEq] at hchk
  rw [frFinalise, if_neg (by simp; omega), if_neg (by omega), if_neg (by rw [hchk]; simp)]

section
variable (addr cmd st : Byte) (payload : List Byte)

theorem replyBody_length : (replyBody addr cmd st payload).length = payload.length + 5 := by
  simp [replyBody, withChk]

/-- A reply is a good frame (R72): its length byte counts the payload and its last byte is the checksum. -/
theorem goodFrame_of_replyBody {f : FrUnit} (hf : f.buf.filledTo f.count.val) (hlen : payload.length ≤ 40)
    (hbytes : f.buf.bytes = replyBody addr cmd st payload) : f.goodFrame := by
  have hcount : f.count.val = payload.length + 5 := by
    rw [← replyBody_length addr cmd st payload, ← hbytes, Memory.bytes_length, Memory.length_of_filledTo hf]
  refine ⟨by omega, ?_, ?_⟩
  · rw [hbytes, hcount]
    show some ((BitVec.ofNat 8 payload.length).toNat + 5) = _
    rw [toNat_ofNat_of_le (by omega)]
  · rw [hbytes, replyBody, withChk, List.getLast?_concat, List.dropLast_concat]

/-- A reply delivered to a fresh attempt ends it in COMPLETE with the reply accumulated. -/
theorem frDeliver_replyWire (d : Nat) (hlen : payload.length ≤ 40) :
    ∃ g : FrUnit, g.HasRead (replyBody addr cmd st payload) ∧
      frDeliver d (replyWire addr cmd st payload) frFresh = { g with state := .complete } := by
  have hread := frDeliver_stuff d (bs := replyBody addr cmd st payload) (frByte_hdr_frFresh d)
    (by rw [replyBody_length, List.length_nil]; omega)
  rw [List.nil_append] at hread
  refine ⟨_, hread, ?_⟩
  rw [replyWire, frDeliver_cons, frDeliver_append]
  exact (frByte_hdr hread d).trans (frFinalise_of_goodFrame d hread.filled
    (goodFrame_of_replyBody addr cmd st payload hread.filled hlen hread.bytes_eq))

end

/-- The accumulated bytes stand at the read port in order (R53, R159). -/
theorem memRead_frBuf_of_bytes {s : State} {bs : List Byte} (hf : s.fr.buf.filledTo s.fr.count.val)
    (hbytes : s.fr.buf.bytes = bs) {j : Nat} (hj : j < bs.length) : memRead s (BitVec.ofNat 8 (0x40 + j)) = bs[j] := by
  have hlt : j < s.fr.count.val := by
    rwa [← hbytes, Memory.bytes_length, Memory.length_of_filledTo hf] at hj
  have hle := s.fr.count_le
  have hentry := frEntry_of_filledTo s.draws hf hlt
  rw [hbytes, List.getElem?_eq_getElem hj, Option.some.injEq] at hentry
  rw [memRead_frBuf s (by omega), hentry]

/-- Settles O34: the ticks only move the timer, and the bytes end the attempt in COMPLETE. -/
theorem replyFrameRoundTrip : Obligations.ReplyFrameRoundTrip := by
  intro s addr cmd st payload es hs hlen hes hticks hwire
  have hstart : exec .frStart s = .next { s with fr := frFresh } := by
    rw [exec_frStart, frStart, if_neg (by simp [hs])]
  obtain ⟨f, hrun, hf⟩ := runOps_frBytes_and_ticks (s := { s with fr := frFresh }) hes
    (by rw [frFresh_timer]; simpa using hticks)
  obtain ⟨g, hg, hdeliver⟩ := frDeliver_replyWire addr cmd st payload s.draws hlen
  have hend : f.untimed = { g with state := .complete } := by
    rw [hf, hwire]
    exact hdeliver
  have hstate : f.state = .complete := by rw [← untimed_state, hend]
  have hcause : f.cause = .none := by rw [← untimed_cause, hend, hg.cause_eq]
  have hpend : f.pend = false := by rw [← untimed_pend, hend, hg.pend_eq]
  have hcount : f.count = g.count := by rw [← untimed_count, hend]
  have hbuf : f.buf = g.buf := by rw [← untimed_buf, hend]
  have hfilled : f.buf.filledTo f.count.val := by
    rw [hbuf, hcount]
    exact hg.filled
  refine ⟨{ s with fr := f }, by rw [runOps, hstart]; exact hrun, rfl, hstate, hcause, hpend, ?_,
    fun j hj => memRead_frBuf_of_bytes hfilled (hbuf ▸ hg.bytes_eq) hj⟩
  show f.count.val = _
  rw [hcount, hg.count_eq, replyBody_length]

end Sys2Proof.Machine
end

section
/-! The SHDLC checksum as a function of a byte sequence (spec/40_chk_shdlc.md R100). -/

namespace Sys2Proof.Machine

/-- `sum8` is the library's sum of a list in the ring of bytes, so the library's laws of sums are its laws. -/
theorem sum8_eq_sum (bs : List Byte) : sum8 bs = bs.sum := by
  induction bs with
  | nil => rfl
  | cons b bs ih => rw [sum8, ih, List.sum_cons]

theorem sum8_append (bs cs : List Byte) : sum8 (bs ++ cs) = sum8 bs + sum8 cs := by
  simp only [sum8_eq_sum, List.sum_append]

theorem sum8_toNat (bs : List Byte) : (sum8 bs).toNat = (bs.map BitVec.toNat).sum % 256 := by
  induction bs with
  | nil => rfl
  | cons b bs ih =>
    rw [sum8, BitVec.toNat_add, ih, List.map_cons, List.sum_cons]
    exact Nat.add_mod_mod _ _ _

theorem chk8_toNat (bs : List Byte) : (chk8 bs).toNat = 255 - (bs.map BitVec.toNat).sum % 256 := by
  rw [chk8, BitVec.toNat_not, sum8_toNat]

/-- The complement loses nothing: two checksums agree exactly when the sums do. -/
theorem chk8_eq_chk8_iff {bs cs : List Byte} : chk8 bs = chk8 cs ↔ sum8 bs = sum8 cs := BitVec.not_inj

/-- Replacing one byte changes the checksum. -/
theorem chk8_replace_eq_iff {pre post : List Byte} {a b : Byte} :
    chk8 (pre ++ a :: post) = chk8 (pre ++ b :: post) ↔ a = b := by
  simp only [chk8_eq_chk8_iff, sum8_append, sum8, add_right_inj, add_left_inj]

theorem xor_bit_ne {b : Byte} {k : Nat} (hk : k < 8) : b ^^^ (1#8 <<< k) ≠ b := by
  have hbit : ∀ k < 8, (1#8 <<< k) ≠ 0#8 := by decide
  exact fun h => hbit k hk ((BitVec.xor_right_inj b).1 (h.trans BitVec.xor_zero.symm))

/-- Settles O17: the laws of sums, carried over the complement. -/
theorem checksumLaws : Obligations.ChecksumLaws := by
  refine ⟨chk8_toNat, rfl, fun bs cs hperm => ?_, fun bs => ?_, fun pre post b k hk => ?_, fun pre mid post a b => ?_,
    fun pre post => ?_⟩
  · rw [chk8_eq_chk8_iff, sum8_eq_sum, sum8_eq_sum, hperm.sum_eq]
  · rw [chk8_toNat]
    omega
  · exact mt chk8_replace_eq_iff.1 (xor_bit_ne hk)
  · simp only [chk8_eq_chk8_iff, sum8_append, sum8]
    ring
  · rw [chk8_eq_chk8_iff, sum8_append, sum8_append, sum8, zero_add]

end Sys2Proof.Machine
end

section
/-! A unit under a sequence of operations of all units: it does what its own operations alone make it do
(spec/10_state.md R21). -/

namespace Sys2Proof.Machine

@[refl] theorem State.SameUnit.refl (u : UnitName) (s : State) : s.SameUnit u s := by cases u <;> rfl

theorem runOps_cons_of_next {i : Instr} {s t : State} (h : exec i s = .next t) (is : List Instr) :
    runOps (i :: is) s = runOps is t := by
  rw [runOps, h]

/-- Under the invariant a sequence completes, and leaves in a unit what the operations of that unit, run alone from a
state with the same unit, leave there. SYS is excluded: WR.START may set its `ill_op` (R206). -/
theorem runOps_sameUnit_of_sameUnit {u : UnitName} (hsys : u ≠ .sys) (is : List Instr) {s s' : State} (hs : s.Inv)
    (hs' : s'.Inv) (hdraws : s.draws = s'.draws) (hsame : s.SameUnit u s') :
    ∃ t t', runOps is s = .next t ∧ runOps (is.filter (fun i => i.unitOf = u)) s' = .next t' ∧ t.SameUnit u t' := by
  induction is generalizing s s' with
  | nil => exact ⟨s, s', rfl, rfl, hsame⟩
  | cons i is ih =>
    obtain ⟨a, ha⟩ := exec_completes hs i
    have hadraws : a.draws = s'.draws := (exec_draws ha).trans hdraws
    rw [runOps_cons_of_next ha]
    by_cases hu : i.unitOf = u
    · obtain ⟨a', ha'⟩ := exec_completes hs' i
      rw [List.filter_cons_of_pos (by simpa using hu), runOps_cons_of_next ha']
      exact ih (exec_inv hs ha) (exec_inv hs' ha') (hadraws.trans (exec_draws ha').symm)
        (exec_sameUnit_congr ha ha' hu hdraws hsame)
    · rw [List.filter_cons_of_neg (by simpa using hu)]
      exact ih (exec_inv hs ha) hs' hadraws ((exec_sameUnit ha hu hsys).symm.trans hsame)

/-- Operations of other units between those of `u` make no difference to `u`. -/
theorem runOps_sameUnit_filter {u : UnitName} (hsys : u ≠ .sys) (is : List Instr) {s : State} (hs : s.Inv) :
    ∃ t t', runOps is s = .next t ∧ runOps (is.filter (fun i => i.unitOf = u)) s = .next t' ∧ t.SameUnit u t' :=
  runOps_sameUnit_of_sameUnit hsys is hs hs rfl (.refl u s)

end Sys2Proof.Machine
end

section
/-! CHK: the accumulator under its two operations, and its two read addresses (spec/40_chk_shdlc.md R101 to R103). -/

namespace Sys2Proof.Machine

theorem memRead_chkAcc (s : State) : memRead s 0x00 = s.chk.acc := rfl
theorem memRead_chkOut (s : State) : memRead s 0x01 = ~~~ s.chk.acc := rfl

/-- Settles O15: the fields of the two words are the two given, and each operation writes the accumulator alone. -/
theorem chkClearAndAdd : Obligations.ChkClearAndAdd := by
  intro s b
  refine ⟨?_, ?_, ⟨_, exec_chkClr s, rfl, rfl, ?_⟩, ⟨_, exec_chkAdd b s, rfl, ?_⟩⟩
  · rw [decode_append]; rfl
  · rw [decode_append]; rfl
  · exact (memRead_chkOut _).trans (by decide : ~~~(0x00 : Byte) = 0xFF)
  · exact BitVec.toNat_add _ _

/-- The additions of a sequence add its sum. -/
theorem runOps_chkAdd (bs : List Byte) (s : State) :
    runOps (bs.map Instr.chkAdd) s = .next { s with chk := { acc := s.chk.acc + sum8 bs } } := by
  induction bs generalizing s with
  | nil => rw [sum8, add_zero]; rfl
  | cons b bs ih =>
    rw [List.map_cons, runOps_cons_of_next (exec_chkAdd b s), ih, sum8, ← BitVec.add_assoc]

/-- R103 without operations of other units: CHK.CLR and the additions of a sequence leave its sum. -/
theorem runOps_chkClr_chkAdd (bs : List Byte) (s : State) :
    runOps (.chkClr :: bs.map Instr.chkAdd) s = .next { s with chk := { acc := sum8 bs } } := by
  rw [runOps_cons_of_next (exec_chkClr s), runOps_chkAdd, zero_add]

/-- Settles O16: the accumulator is what the operations of CHK alone leave, the sum of the added bytes. -/
theorem chkOutIsChecksumOfAddedBytes : Obligations.ChkOutIsChecksumOfAddedBytes := by
  refine ⟨fun s => ⟨memRead_chkAcc s, memRead_chkOut s⟩, fun s is bs hinv hadds => ?_⟩
  obtain ⟨t, t', hrun, hrun', hsame⟩ := runOps_sameUnit_filter (u := .chk) nofun (.chkClr :: is) hinv
  rw [List.filter_cons_of_pos rfl, hadds, runOps_chkClr_chkAdd, Host.Outcome.next.injEq] at hrun'
  have hchk : t.chk = t'.chk := hsame
  refine ⟨t, hrun, ?_⟩
  rw [memRead_chkOut, hchk, ← hrun', chk8]

end Sys2Proof.Machine
end

section
/-! The CRC-8 step as a function of the register and the byte (spec/41_crc8_i2c.md R111): XOR and shift are linear over
bits, and no iteration loses a bit, for the bit shifted out comes back as bit 0 of the polynomial. -/

namespace Sys2Proof.Machine

theorem crc8Shift_of_top {c : Byte} (h : c.getLsbD 7 = true) : crc8Shift c = c <<< 1 ^^^ crc8Poly := if_pos h

theorem crc8Shift_of_not_top {c : Byte} (h : c.getLsbD 7 = false) : crc8Shift c = c <<< 1 :=
  if_neg (Bool.eq_false_iff.1 h)

/-- R111's iterations as the library's iterate of one of them. -/
theorem crc8Shifts_eq_iterate (n : Nat) (c : Byte) : crc8Shifts n c = crc8Shift^[n] c := by
  induction n generalizing c with
  | zero => rfl
  | succ n ih => rw [crc8Shifts, ih, Function.iterate_succ_apply]

theorem crc8Step_eq (c b : Byte) : crc8Step c b = crc8Shift^[8] (c ^^^ b) := crc8Shifts_eq_iterate 8 (c ^^^ b)

theorem crc8Word_eq (d0 d1 : Byte) : crc8Word d0 d1 = crc8Step (crc8Step 0xFF d0) d1 := BitVec.xor_zero

/-! Linearity. -/

/-- The reduction happens in neither, one or both of the summands; in both, the two polynomials cancel. -/
theorem crc8Shift_xor (a b : Byte) : crc8Shift (a ^^^ b) = crc8Shift a ^^^ crc8Shift b := by
  have hshift : (a ^^^ b) <<< 1 = a <<< 1 ^^^ b <<< 1 := BitVec.shiftLeft_xor_distrib a b 1
  have htop : (a ^^^ b).getLsbD 7 = (a.getLsbD 7 ^^ b.getLsbD 7) := BitVec.getLsbD_xor
  cases ha : a.getLsbD 7 <;> cases hb : b.getLsbD 7 <;> rw [ha, hb] at htop
  · rw [crc8Shift_of_not_top ha, crc8Shift_of_not_top hb, crc8Shift_of_not_top htop, hshift]
  · rw [crc8Shift_of_not_top ha, crc8Shift_of_top hb, crc8Shift_of_top htop, hshift, BitVec.xor_assoc]
  · rw [crc8Shift_of_top ha, crc8Shift_of_not_top hb, crc8Shift_of_top htop, hshift]
    ac_rfl
  · rw [crc8Shift_of_top ha, crc8Shift_of_top hb, crc8Shift_of_not_top htop, hshift]
    calc a <<< 1 ^^^ b <<< 1
        = a <<< 1 ^^^ b <<< 1 ^^^ (crc8Poly ^^^ crc8Poly) := by rw [BitVec.xor_self, BitVec.xor_zero]
      _ = (a <<< 1 ^^^ crc8Poly) ^^^ (b <<< 1 ^^^ crc8Poly) := by ac_rfl

theorem crc8Shift_iterate_xor (n : Nat) (a b : Byte) :
    crc8Shift^[n] (a ^^^ b) = crc8Shift^[n] a ^^^ crc8Shift^[n] b := by
  induction n generalizing a b with
  | zero => rfl
  | succ n ih => simp only [Function.iterate_succ_apply, crc8Shift_xor, ih]

/-- R114: the step is linear in the register and the byte together. -/
theorem crc8Step_xor (c c' b b' : Byte) : crc8Step (c ^^^ c') (b ^^^ b') = crc8Step c b ^^^ crc8Step c' b' := by
  simp only [crc8Step_eq, ← crc8Shift_iterate_xor]
  congr 1
  ac_rfl

/-- Feeding the register its own value clears it. -/
theorem crc8Step_self (c : Byte) : crc8Step c c = 0x00 := by
  rw [crc8Step_eq, BitVec.xor_self]
  rfl

/-! Injectivity. -/

/-- The polynomial is odd, so an iteration's bit 0 says whether it has reduced. -/
theorem crc8Shift_bit_zero (c : Byte) : (crc8Shift c).getLsbD 0 = c.getLsbD 7 := by
  cases h : c.getLsbD 7
  · simp [crc8Shift_of_not_top h]
  · simp [crc8Shift_of_top h]

theorem crc8Shift_injective : Function.Injective crc8Shift := by
  intro a b h
  have htop : a.getLsbD 7 = b.getLsbD 7 := by rw [← crc8Shift_bit_zero, h, crc8Shift_bit_zero]
  have hshift : a <<< 1 = b <<< 1 := by
    cases hb : b.getLsbD 7
    · rwa [crc8Shift_of_not_top (htop.trans hb), crc8Shift_of_not_top hb] at h
    · rwa [crc8Shift_of_top (htop.trans hb), crc8Shift_of_top hb, BitVec.xor_left_inj] at h
  refine BitVec.eq_of_getLsbD_eq fun i hi => ?_
  by_cases h7 : i = 7
  · exact h7 ▸ htop
  · have hbit := congrArg (BitVec.getLsbD · (i + 1)) hshift
    simpa only [BitVec.getLsbD_shiftLeft, show i + 1 < 8 by omega, decide_true, Bool.true_and, Nat.add_sub_cancel,
      show ¬ i + 1 < 1 by omega, decide_false, Bool.not_false] using hbit

theorem crc8Step_inj {c c' b b' : Byte} : crc8Step c b = crc8Step c' b' ↔ c ^^^ b = c' ^^^ b' := by
  rw [crc8Step_eq, crc8Step_eq, (crc8Shift_injective.iterate 8).eq_iff]

/-- A change of the first byte alone, of any number of bits, changes the CRC byte. -/
theorem crc8Word_left_inj {a b d1 : Byte} : crc8Word a d1 = crc8Word b d1 ↔ a = b := by
  rw [crc8Word_eq, crc8Word_eq, crc8Step_inj, BitVec.xor_left_inj, crc8Step_inj, BitVec.xor_right_inj]

/-- A change of the second byte alone, of any number of bits, changes the CRC byte. -/
theorem crc8Word_right_inj {d0 a b : Byte} : crc8Word d0 a = crc8Word d0 b ↔ a = b := by
  rw [crc8Word_eq, crc8Word_eq, crc8Step_inj, BitVec.xor_right_inj]

/-- R114's linearity: the initial value enters three times on the right, and two of them cancel. -/
theorem crc8Word_xor (a0 a1 b0 b1 : Byte) :
    crc8Word (a0 ^^^ b0) (a1 ^^^ b1) = crc8Word a0 a1 ^^^ crc8Word b0 b1 ^^^ crc8Word 0x00 0x00 := by
  simp only [crc8Word_eq, ← crc8Step_xor, BitVec.xor_self, BitVec.zero_xor, BitVec.xor_zero, BitVec.ofNat_eq_ofNat]

/-- R115's first value, one byte at a time. -/
theorem crc8Word_zero_zero : crc8Word 0x00 0x00 = 0x81 := by
  have hfirst : crc8Step 0xFF 0x00 = 0xAC := by decide
  rw [crc8Word_eq, hfirst]
  decide

/-- Settles O20: single-bit detection from injectivity, the residue because the CRC byte is the register. -/
theorem crc8WordLaws : Obligations.Crc8WordLaws := by
  refine ⟨fun d0 d1 k hk => ⟨?_, ?_⟩, crc8Word_xor, crc8Word_zero_zero, fun d0 d1 => ?_⟩
  · exact mt crc8Word_left_inj.1 (xor_bit_ne hk)
  · exact mt crc8Word_right_inj.1 (xor_bit_ne hk)
  · rw [crc8Word_eq, crc8Step_self]

end Sys2Proof.Machine
end

section
/-! CRC8: the register under its two operations, and CRC8_OUT (spec/41_crc8_i2c.md R110 to R113). -/

namespace Sys2Proof.Machine

theorem memRead_crc8Out (s : State) : memRead s 0x03 = crc8Out s.crc8.reg := rfl

/-- Settles O18: the fields of the two words are the two given, and each operation writes the register alone. -/
theorem crc8InitAndUpdate : Obligations.Crc8InitAndUpdate := by
  refine ⟨fun s b => ⟨?_, ?_, ⟨_, exec_crc8Init s, rfl, rfl⟩, ⟨_, exec_crc8Upd b s, rfl, ?_⟩⟩, fun c b => ?_,
    crc8Step_self 0x00, by decide⟩
  · rw [decode_append]; rfl
  · rw [decode_append]; rfl
  · exact crc8Step_eq s.crc8.reg b
  · exact crc8Step_inj.2 BitVec.xor_zero.symm

/-- R113 without operations of other units. -/
theorem runOps_crc8Init_crc8Upd_crc8Upd (d0 d1 : Byte) (s : State) :
    runOps [.crc8Init, .crc8Upd d0, .crc8Upd d1] s =
      .next { s with crc8 := { reg := crc8Step (crc8Step crc8Initial d0) d1 } } := by
  rw [runOps_cons_of_next (exec_crc8Init s), runOps_cons_of_next (exec_crc8Upd d0 _), runOps_singleton, exec_crc8Upd]

/-- Settles O19: the register is what the operations of CRC8 alone leave. -/
theorem crc8OutIsCrcOfTheWord : Obligations.Crc8OutIsCrcOfTheWord := by
  refine ⟨fun _ _ => rfl, fun s is d0 d1 hinv hupds => ?_⟩
  obtain ⟨t, t', hrun, hrun', hsame⟩ := runOps_sameUnit_filter (u := .crc8) nofun (.crc8Init :: is) hinv
  rw [List.filter_cons_of_pos rfl, hupds, runOps_crc8Init_crc8Upd_crc8Upd, Host.Outcome.next.injEq] at hrun'
  have hcrc8 : t.crc8 = t'.crc8 := hsame
  refine ⟨t, hrun, ?_⟩
  rw [memRead_crc8Out, hcrc8, ← hrun', crc8Word]

end Sys2Proof.Machine
end

section
/-! The byte-stuffing codec ESC and DESC (spec/42_stuffing.md R120 to R127): ESC.PUT and DESC.PUT case by case, the laws
of `stuff`, and that the descaper undoes the escaper. -/

namespace Sys2Proof.Machine

/-! ESC.PUT and what it makes of a byte. -/

section
variable {b x : Byte}

theorem escPut_of_stuffMap_eq_some (h : stuffMap b = some x) : escPut b = ⟨escb, x, 2⟩ := by rw [escPut, h]

theorem escPut_of_stuffMap_eq_none (h : stuffMap b = none) : escPut b = ⟨b, 0x00, 1⟩ := by rw [escPut, h]

theorem escBytes_escPut_of_stuffMap_eq_some (h : stuffMap b = some x) : escBytes (escPut b) = [escb, x] := by
  rw [escPut_of_stuffMap_eq_some h]
  rfl

theorem escBytes_escPut_of_stuffMap_eq_none (h : stuffMap b = none) : escBytes (escPut b) = [b] := by
  rw [escPut_of_stuffMap_eq_none h]
  rfl

/-- The replacement bytes of R15. -/
theorem mem_replacements_of_unstuffMap_eq_some (h : unstuffMap x = some b) :
    x ∈ ([0x31, 0x33, 0x5D, 0x5E] : List Byte) := by
  by_contra hx
  have hnone : unstuffMap x = none := unstuffMap_eq_none.2 (by simpa using hx)
  cases hnone.symm.trans h

/-- No replacement byte is itself reserved. -/
theorem stuffMap_eq_none_of_stuffMap_eq_some (h : stuffMap b = some x) : stuffMap x = none := by
  have hreplacements : ∀ y ∈ ([0x31, 0x33, 0x5D, 0x5E] : List Byte), stuffMap y = none := by decide
  exact hreplacements x (mem_replacements_of_unstuffMap_eq_some (unstuffMap_stuffMap h))

theorem ne_escb_of_stuffMap_eq_none (h : stuffMap b = none) : b ≠ escb := by
  obtain ⟨-, -, hescb, -⟩ := stuffMap_eq_none.1 h
  exact hescb

/-- A byte on the wire is the marker or is not reserved. -/
theorem eq_escb_or_stuffMap_eq_none_of_mem_escBytes {w : Byte} (hw : w ∈ escBytes (escPut b)) :
    w = escb ∨ stuffMap w = none := by
  cases h : stuffMap b with
  | some x =>
    rw [escBytes_escPut_of_stuffMap_eq_some h, List.mem_pair] at hw
    rcases hw with rfl | rfl
    · exact .inl rfl
    · exact .inr (stuffMap_eq_none_of_stuffMap_eq_some h)
  | none =>
    rw [escBytes_escPut_of_stuffMap_eq_none h, List.mem_singleton] at hw
    exact .inr (hw ▸ h)

end

/-- Settles O21: the fields of the word are the two given, and the escape table has a row for each reserved byte. -/
theorem escPutEscapesOneByte : Obligations.EscPutEscapesOneByte := by
  intro s b
  refine ⟨?_, _, exec_escPut b s, rfl, fun hb => ?_, fun hb => ?_, fun hb => ?_, fun hb => ?_, fun hb => ?_⟩
  · rw [decode_append]; rfl
  · exact escPut_of_stuffMap_eq_some (hb ▸ rfl)
  · exact escPut_of_stuffMap_eq_some (hb ▸ rfl)
  · exact escPut_of_stuffMap_eq_some (hb ▸ rfl)
  · exact escPut_of_stuffMap_eq_some (hb ▸ rfl)
  · exact escPut_of_stuffMap_eq_none (stuffMap_eq_none.2 hb)

/-! DESC.PUT, one equation for each case of R125. -/

section
variable {u : DescUnit} {b x : Byte}

theorem descPut_of_err (b : Byte) (he : u.err = true) : descPut b u = u := if_pos he

theorem descPut_of_replacement (he : u.err = false) (hp : u.pend = true) (hx : unstuffMap b = some x) :
    descPut b u = ⟨false, true, false, x⟩ := by
  rw [descPut, if_neg (by simp [he]), if_pos hp, hx, he]

theorem descPut_of_not_replacement (he : u.err = false) (hp : u.pend = true) (hx : unstuffMap b = none) :
    descPut b u = ⟨false, false, true, u.out⟩ := by
  rw [descPut, if_neg (by simp [he]), if_pos hp, hx]

theorem descPut_escb (he : u.err = false) (hp : u.pend = false) : descPut escb u = ⟨true, false, false, u.out⟩ := by
  rw [descPut, if_neg (by simp [he]), if_neg (by simp [hp]), if_pos rfl, he]

theorem descPut_verbatim (he : u.err = false) (hp : u.pend = false) (hb : b ≠ escb) :
    descPut b u = ⟨false, true, false, b⟩ := by
  rw [descPut, if_neg (by simp [he]), if_neg (by simp [hp]), if_neg hb, he, hp]

end

/-- Settles O23: the fields of each word are the two given, and each case is one of the equations of DESC.PUT. -/
theorem descClearAndPut : Obligations.DescClearAndPut := by
  intro s b
  refine ⟨?_, ?_, exec_descClr s, _, exec_descPut b s, rfl, ?_⟩
  · rw [decode_append]; rfl
  · rw [decode_append]; rfl
  by_cases he : s.desc.err = true
  case pos => rw [if_pos he]; exact descPut_of_err b he
  rw [if_neg he]
  rw [Bool.not_eq_true] at he
  by_cases hp : s.desc.pend = true
  · rw [if_pos hp]
    split_ifs with h31 h33 h5D h5E
    · exact descPut_of_replacement he hp (h31 ▸ rfl)
    · exact descPut_of_replacement he hp (h33 ▸ rfl)
    · exact descPut_of_replacement he hp (h5D ▸ rfl)
    · exact descPut_of_replacement he hp (h5E ▸ rfl)
    · exact descPut_of_not_replacement he hp (unstuffMap_eq_none.2 ⟨h31, h33, h5D, h5E⟩)
  · rw [if_neg hp]
    rw [Bool.not_eq_true] at hp
    split_ifs with hb
    · rw [hb]; exact descPut_escb he hp
    · exact descPut_verbatim he hp hb

/-! The laws of `stuff`. -/

@[simp] theorem stuff_nil : stuff [] = [] := rfl

theorem stuff_cons (b : Byte) (bs : List Byte) : stuff (b :: bs) = escBytes (escPut b) ++ stuff bs :=
  List.flatMap_cons

section
variable {b x : Byte} (bs : List Byte)

theorem stuff_cons_of_stuffMap_eq_some (h : stuffMap b = some x) : stuff (b :: bs) = escb :: x :: stuff bs := by
  rw [stuff_cons, escBytes_escPut_of_stuffMap_eq_some h]
  rfl

theorem stuff_cons_of_stuffMap_eq_none (h : stuffMap b = none) : stuff (b :: bs) = b :: stuff bs := by
  rw [stuff_cons, escBytes_escPut_of_stuffMap_eq_none h]
  rfl

/-- R121's definition: `esc_cnt` says how many of the two output registers are valid. -/
theorem stuff_cons_eq_ite (b : Byte) : stuff (b :: bs) =
    (if (escPut b).cnt = 2 then [(escPut b).out0, (escPut b).out1] else [(escPut b).out0]) ++ stuff bs := by
  cases h : stuffMap b with
  | some x => rw [stuff_cons_of_stuffMap_eq_some bs h, escPut_of_stuffMap_eq_some h, if_pos rfl]; rfl
  | none => rw [stuff_cons_of_stuffMap_eq_none bs h, escPut_of_stuffMap_eq_none h, if_neg (by simp)]; rfl

/-- R121's first law, exactly: one byte more for each reserved byte. -/
theorem length_stuff : (stuff bs).length = bs.length + bs.countP (fun b => (stuffMap b).isSome) := by
  induction bs with
  | nil => rfl
  | cons b bs ih =>
    cases h : stuffMap b with
    | some x =>
      rw [stuff_cons_of_stuffMap_eq_some bs h, List.countP_cons_of_pos (by rw [h]; rfl)]
      simp only [List.length_cons, ih]
      omega
    | none =>
      rw [stuff_cons_of_stuffMap_eq_none bs h, List.countP_cons_of_neg (by simp [h])]
      simp only [List.length_cons, ih]
      omega

theorem eq_escb_or_stuffMap_eq_none_of_mem_stuff {w : Byte} (hw : w ∈ stuff bs) : w = escb ∨ stuffMap w = none := by
  obtain ⟨b, -, hb⟩ := List.mem_flatMap.1 hw
  exact eq_escb_or_stuffMap_eq_none_of_mem_escBytes hb

/-- R121's second law: a reserved byte that is not the marker never stands on the wire. -/
theorem not_mem_stuff {w : Byte} (hne : w ≠ escb) (h : stuffMap w = some x) : w ∉ stuff bs := by
  intro hw
  rcases eq_escb_or_stuffMap_eq_none_of_mem_stuff bs hw with he | hn
  · exact hne he
  · cases hn.symm.trans h

/-- R121's third law: a marker comes from a reserved byte alone, whose replacement byte follows it. -/
theorem stuff_escb_followed (k : Nat) (hk : (stuff bs)[k]? = some escb) :
    ∃ x ∈ ([0x31, 0x33, 0x5D, 0x5E] : List Byte), (stuff bs)[k + 1]? = some x := by
  induction bs generalizing k with
  | nil => cases hk
  | cons b bs ih =>
    cases h : stuffMap b with
    | some x =>
      rw [stuff_cons_of_stuffMap_eq_some bs h] at hk ⊢
      match k with
      | 0 => exact ⟨x, mem_replacements_of_unstuffMap_eq_some (unstuffMap_stuffMap h), rfl⟩
      | 1 => exact absurd (Option.some.inj hk) (ne_escb_of_stuffMap_eq_none (stuffMap_eq_none_of_stuffMap_eq_some h))
      | k + 2 => exact ih k hk
    | none =>
      rw [stuff_cons_of_stuffMap_eq_none bs h] at hk ⊢
      match k with
      | 0 => exact absurd (Option.some.inj hk) (ne_escb_of_stuffMap_eq_none h)
      | k + 1 => exact ih k hk

/-- R121's fourth law. -/
theorem stuff_eq_self (h : ∀ b ∈ bs, stuffMap b = none) : stuff bs = bs := by
  induction bs with
  | nil => rfl
  | cons b bs ih =>
    obtain ⟨hb, hbs⟩ := List.forall_mem_cons.1 h
    rw [stuff_cons_of_stuffMap_eq_none bs hb, ih hbs]

end

/-- Settles O22, law by law. -/
theorem stuffLaws : Obligations.StuffLaws := by
  intro bs
  have hlen := length_stuff bs
  have hreserved := List.countP_le_length (p := fun b => (stuffMap b).isSome) (l := bs)
  refine ⟨stuff_cons_eq_ite bs, stuff_nil, by omega, by omega, ?_, ?_, ?_, stuff_escb_followed bs,
    fun h => stuff_eq_self bs fun b hb => ?_⟩
  · exact not_mem_stuff (x := 0x5E) bs (by decide) rfl
  · exact not_mem_stuff (x := 0x31) bs (by decide) rfl
  · exact not_mem_stuff (x := 0x33) bs (by decide) rfl
  · exact stuffMap_eq_none.2 (by simpa using h b hb)

/-! The descaper over the escaper's output. -/

theorem unstuffFrom_nil {u : DescUnit} (hp : u.pend = false) : unstuffFrom u [] = some [] := by
  rw [unstuffFrom, if_neg (by simp [hp])]

section
variable {u v : DescUnit} {w : Byte} (ws : List Byte)

/-- A step of the descaper that outputs a byte. -/
theorem unstuffFrom_cons_of_valid (hv : descPut w u = v) (he : v.err = false) (hvalid : v.valid = true) :
    unstuffFrom u (w :: ws) = (unstuffFrom v ws).map (v.out :: ·) := by
  simp only [unstuffFrom, hv, he, hvalid, if_true, Bool.false_eq_true, if_false]

/-- A step of the descaper that outputs nothing and is no error. -/
theorem unstuffFrom_cons_of_not_valid (hv : descPut w u = v) (he : v.err = false) (hvalid : v.valid = false) :
    unstuffFrom u (w :: ws) = unstuffFrom v ws := by
  simp only [unstuffFrom, hv, he, hvalid, Bool.false_eq_true, if_false, Option.map_id']

/-- From a state without an error and with nothing pending, the descaper makes of what ESC.PUT makes of a byte that
byte, and is in such a state again. -/
theorem unstuffFrom_escBytes_append (he : u.err = false) (hp : u.pend = false) (b : Byte) :
    unstuffFrom u (escBytes (escPut b) ++ ws) = (unstuffFrom ⟨false, true, false, b⟩ ws).map (b :: ·) := by
  cases h : stuffMap b with
  | some x =>
    rw [escBytes_escPut_of_stuffMap_eq_some h]
    calc unstuffFrom u (escb :: x :: ws)
        = unstuffFrom ⟨true, false, false, u.out⟩ (x :: ws) :=
          unstuffFrom_cons_of_not_valid _ (descPut_escb he hp) rfl rfl
      _ = (unstuffFrom ⟨false, true, false, b⟩ ws).map (b :: ·) :=
          unstuffFrom_cons_of_valid _ (descPut_of_replacement rfl rfl (unstuffMap_stuffMap h)) rfl rfl
  | none =>
    rw [escBytes_escPut_of_stuffMap_eq_none h]
    exact unstuffFrom_cons_of_valid _ (descPut_verbatim he hp (ne_escb_of_stuffMap_eq_none h)) rfl rfl

end

/-- R126 from any state without an error and with nothing pending. -/
theorem unstuffFrom_stuff {u : DescUnit} (he : u.err = false) (hp : u.pend = false) (bs : List Byte) :
    unstuffFrom u (stuff bs) = some bs := by
  induction bs generalizing u with
  | nil => exact unstuffFrom_nil hp
  | cons b bs ih => rw [stuff_cons, unstuffFrom_escBytes_append _ he hp, ih rfl rfl, Option.map_some]

theorem unstuff_stuff (bs : List Byte) : unstuff (stuff bs) = some bs :=
  unstuffFrom_stuff descFresh_err descFresh_pend bs

/-- Settles O24: `unstuff` is a left inverse of `stuff`, so `stuff` is one-to-one. -/
theorem unstuffStuffRoundTrip : Obligations.UnstuffStuffRoundTrip := by
  refine ⟨unstuff_stuff, fun bs cs h => Option.some.inj ?_⟩
  rw [← unstuff_stuff bs, h, unstuff_stuff cs]

end Sys2Proof.Machine
end

section
/-! The operations of FR case by case (spec/43_frame_sync.md R140 to R162): one equation for each state, and for
FR.BYTE in READING one for each test of R145. -/

namespace Sys2Proof.Machine

section
variable {f : FrUnit}

theorem frStart_of_active (hs : f.state.active = true) : frStart f = f := if_pos hs

theorem frStart_of_inactive (hs : f.state.active = false) : frStart f = frFresh := if_neg (by simp [hs])

theorem frTick_of_inactive (hs : f.state.active = false) : frTick f = f := if_neg (by simp [hs])

theorem frTick_timer_of_active (hs : f.state.active = true) : (frTick f).timer = f.timer + 1 := by
  rw [frTick, if_pos hs]
  split <;> rfl

theorem frTick_state_of_active (hs : f.state.active = true) :
    (frTick f).state = if f.timer.toNat + 1 > Config.frTimeoutTicks then .timedOut else f.state := by
  rw [frTick, if_pos hs]
  split <;> rfl

/-- FR.TICK writes the state and the timer alone (R162). -/
theorem frTick_frame (f : FrUnit) : frTick f = { f with state := (frTick f).state, timer := (frTick f).timer } := by
  unfold frTick
  split
  · split <;> rfl
  · rfl

/-- `store(v)` on a full buffer (R151). -/
theorem frStore_of_full (v : Byte) (hfull : f.count.val = 45) : frStore v f = raiseProtocolError .overflow f := by
  rcases frStore_cases v f with ⟨hlt, -⟩ | ⟨-, e⟩
  · simp [hfull] at hlt
  · exact e

/-- `store(v)` below FR_BUF_CAP writes one entry, at `fr_count` (R150). -/
theorem frStore_of_not_full (v : Byte) (hroom : f.count.val ≠ 45) :
    (frStore v f).state = f.state ∧ (frStore v f).cause = f.cause ∧ (frStore v f).count.val = f.count.val + 1 ∧
      (frStore v f).buf.read f.count.val = some v ∧
      ∀ i, i ≠ f.count.val → (frStore v f).buf.read i = f.buf.read i := by
  rcases frStore_cases v f with ⟨_, e⟩ | ⟨hfull, -⟩
  · rw [e]
    exact ⟨rfl, rfl, rfl, Memory.read_write_same _ _ v, fun i hi => Memory.read_write_other _ v hi⟩
  · exact absurd hfull hroom

section
variable (d : Nat) {b : Byte} (hs : f.state = .reading)
include hs

theorem frByte_of_pend (hp : f.pend = true) : frByte d b f = frUnstuff b f := by
  rw [frByte_of_reading d b hs, frReadingByte, if_pos hp]

theorem frByte_escb_of_reading (hp : f.pend = false) : frByte d escb f = { f with pend := true } := by
  rw [frByte_of_reading d escb hs, frReadingByte, if_neg (by simp [hp]), if_pos rfl]

theorem frByte_hdr_of_reading (hp : f.pend = false) : frByte d hdr f = frFinalise d f := by
  rw [frByte_of_reading d hdr hs, frReadingByte, if_neg (by simp [hp]), if_neg (by decide), if_pos rfl]

theorem frByte_verbatim_of_reading (hp : f.pend = false) (hescb : b ≠ escb) (hhdr : b ≠ hdr) :
    frByte d b f = frStore b f := by
  rw [frByte_of_reading d b hs, frReadingByte, if_neg (by simp [hp]), if_neg hescb, if_neg hhdr]

end

section
variable {b v : Byte}

theorem frUnstuff_of_replacement (hv : unstuffMap b = some v) : frUnstuff b f = frStore v { f with pend := false } := by
  rw [frUnstuff, hv]

theorem frUnstuff_of_not_replacement (hnone : unstuffMap b = none) :
    frUnstuff b f = raiseProtocolError .badStuffing { f with pend := false } := by
  rw [frUnstuff, hnone]

/-- The byte after a marker drops the pending flag in every case (R147). -/
@[simp] theorem frUnstuff_pend (b : Byte) (f : FrUnit) : (frUnstuff b f).pend = false := by
  cases hb : unstuffMap b with
  | some v => rw [frUnstuff_of_replacement hb, frStore_pend]
  | none => rw [frUnstuff_of_not_replacement hb, raiseProtocolError_pend]

end

/-- The end-of-frame checks write the state and the cause alone (R154). -/
theorem frFinalise_frame (d : Nat) (f : FrUnit) :
    frFinalise d f = { f with state := (frFinalise d f).state, cause := (frFinalise d f).cause } := by
  rcases frFinalise_cases d f with ⟨c, -, e⟩ | ⟨e, -⟩
  · rw [e]; rfl
  · rw [e]

/-- The first check that fails names the cause, in the order of R154. -/
theorem frFinalise_verdict (d : Nat) (f : FrUnit) :
    if f.count.val < 3 then (frFinalise d f).state = .protocolError ∧ (frFinalise d f).cause = .tooShort
    else if f.count.val < 5 ∨ f.count.val ≠ (frEntry d f 3).toNat + 5 then
      (frFinalise d f).state = .protocolError ∧ (frFinalise d f).cause = .lenMismatch
    else if chk8 (frBytes d f (f.count.val - 1)) ≠ frEntry d f (f.count.val - 1) then
      (frFinalise d f).state = .protocolError ∧ (frFinalise d f).cause = .chkMismatch
    else (frFinalise d f).state = .complete ∧ (frFinalise d f).cause = f.cause := by
  unfold frFinalise
  split_ifs <;> exact ⟨rfl, rfl⟩

end

theorem exec_frStart_of_inactive {s : State} (hs : s.fr.state.active = false) :
    exec .frStart s = .next { s with fr := frFresh } := by
  rw [exec_frStart, frStart_of_inactive hs]

/-- Settles O25: in an active state FR.START leaves FR as it is, in any other it writes the fresh record. -/
theorem frStartBeginsAnAttempt : Obligations.FrStartBeginsAnAttempt := by
  refine ⟨fun a => by rw [decode_append]; rfl, fun s => ?_⟩
  split
  case isTrue hs =>
    rw [exec_frStart, frStart_of_active (FrState.active_eq_true.2 hs)]
  case isFalse hs =>
    have hinactive : s.fr.state.active = false := by rwa [← FrState.active_eq_true, Bool.not_eq_true] at hs
    exact ⟨_, exec_frStart_of_inactive hinactive, rfl, rfl, rfl, rfl, rfl, rfl, Memory.read_nil⟩

/-- Settles O26, by the dispatch of R142. -/
theorem frByteOutsideReading : Obligations.FrByteOutsideReading := by
  intro s b
  refine ⟨fun hs => ?_, fun hs => ?_⟩
  · rw [exec_frByte, frByte_of_awaitHeader s.draws b hs]
    rfl
  · rw [exec_frByte, frByte_of_inactive s.draws b (FrState.active_eq_false.2 hs)]

/-- Settles O27: after a marker, the escape table decides between `store` and BAD_STUFFING. -/
theorem frByteEscapeSequence : Obligations.FrByteEscapeSequence := by
  intro s b hs
  refine ⟨fun hp => ?_, fun hp => ?_⟩
  · rw [exec_frByte, frByte_escb_of_reading s.draws hs hp]
  · rw [exec_frByte, frByte_of_pend s.draws hs hp]
    refine ⟨_, rfl, rfl, frUnstuff_pend b s.fr, frUnstuff_timer b s.fr, fun v hbv => ?_, fun hb => ?_⟩
    · have hv : unstuffMap b = some v := by
        rcases hbv with ⟨rfl, rfl⟩ | ⟨rfl, rfl⟩ | ⟨rfl, rfl⟩ | ⟨rfl, rfl⟩ <;> rfl
      rw [frUnstuff_of_replacement hv]
      split
      case isTrue hfull => exact frStore_of_full v hfull
      case isFalse hroom =>
        obtain ⟨hstate, hrest⟩ := frStore_of_not_full (f := { s.fr with pend := false }) v hroom
        exact ⟨hstate.trans hs, hrest⟩
    · exact frUnstuff_of_not_replacement (unstuffMap_eq_none.2 hb)

/-- Settles O28, by `store` at a full buffer and below. -/
theorem frByteStoresVerbatim : Obligations.FrByteStoresVerbatim := by
  intro s b hs hp hescb hhdr
  rw [exec_frByte, frByte_verbatim_of_reading s.draws hs hp hescb hhdr]
  split
  case isTrue hfull => rw [frStore_of_full b hfull, raiseProtocolError]
  case isFalse hroom =>
    obtain ⟨hstate, hcause, hcount, hbuf⟩ := frStore_of_not_full b hroom
    exact ⟨_, rfl, rfl, hstate.trans hs, hcause, (frStore_pend b s.fr).trans hp, frStore_timer b s.fr, hcount, hbuf⟩

/-- Settles O29: the closing header is the end-of-frame checks. -/
theorem frClosingHeaderRunsTheChecks : Obligations.FrClosingHeaderRunsTheChecks := by
  intro s hs hp
  rw [exec_frByte, frByte_hdr_of_reading s.draws hs hp]
  exact ⟨_, rfl, congrArg (fun f => { s with fr := f }) (frFinalise_frame s.draws s.fr), frFinalise_verdict s.draws s.fr⟩

/-- Settles O30: a tick of a running attempt, and a tick outside one. -/
theorem frTickAndTheDeadline : Obligations.FrTickAndTheDeadline := by
  refine ⟨fun a => by rw [decode_append]; rfl, fun s => ⟨fun hs => ?_, fun hs => ?_⟩⟩
  · have hactive := FrState.active_eq_true.2 hs
    exact ⟨_, exec_frTick s, congrArg (fun f => { s with fr := f }) (frTick_frame s.fr), frTick_timer_of_active hactive,
      frTick_state_of_active hactive⟩
  · rw [exec_frTick, frTick_of_inactive (FrState.active_eq_false.2 hs)]

end Sys2Proof.Machine
end

section
/-! FR under operations of every unit: it rests outside an attempt (spec/60_exceptions.md R212, R213), and an attempt ends
by the deadline (spec/43_frame_sync.md R166, R167). -/

namespace Sys2Proof.Machine

section
variable {f : FrUnit} (hs : f.state ≠ .idle)
include hs

/-! No operation of FR enters IDLE (R32). -/

theorem frStore_state_ne_idle (v : Byte) : (frStore v f).state ≠ .idle := by
  rcases frStore_cases v f with ⟨_, e⟩ | ⟨-, e⟩ <;> simp [e, hs]

theorem frUnstuff_state_ne_idle (b : Byte) : (frUnstuff b f).state ≠ .idle := by
  cases hb : unstuffMap b with
  | some v =>
    rw [frUnstuff_of_replacement hb]
    exact frStore_state_ne_idle (f := { f with pend := false }) hs v
  | none => simp [frUnstuff_of_not_replacement hb]

omit hs in
theorem frFinalise_state_ne_idle (d : Nat) (f : FrUnit) : (frFinalise d f).state ≠ .idle := by
  rcases frFinalise_cases d f with ⟨c, -, e⟩ | ⟨e, -⟩ <;> simp [e]

theorem frByte_state_ne_idle (d : Nat) (b : Byte) : (frByte d b f).state ≠ .idle := by
  cases hcase : f.state
  case awaitHeader => rw [frByte_of_awaitHeader d b hcase]; split <;> simp
  case reading =>
    rw [frByte_of_reading d b hcase, frReadingByte]
    split_ifs
    · exact frUnstuff_state_ne_idle hs b
    · exact hs
    · exact frFinalise_state_ne_idle d f
    · exact frStore_state_ne_idle hs b
  all_goals rwa [frByte_of_inactive d b (by rw [hcase]; rfl)]

theorem frStart_state_ne_idle : (frStart f).state ≠ .idle := by
  unfold frStart
  split
  · exact hs
  · simp

theorem frTick_state_ne_idle : (frTick f).state ≠ .idle := by
  unfold frTick
  split_ifs
  · simp
  · exact hs
  · exact hs

end

section
variable {i : Instr} {s t : State}

/-- Everything an operation can do to FR. -/
theorem exec_fr_cases (h : exec i s = .next t) :
    (i = .frStart ∧ t.fr = frStart s.fr) ∨ (∃ b, i = .frByte b ∧ t.fr = frByte s.draws b s.fr) ∨
    (i = .frTick ∧ t.fr = frTick s.fr) ∨ (i.unitOf ≠ .fr ∧ t.fr = s.fr) := by
  by_cases hu : i.unitOf = .fr
  · rcases unitOf_eq_fr.1 hu with rfl | ⟨b, rfl⟩ | rfl
    · cases h; exact .inl ⟨rfl, rfl⟩
    · cases h; exact .inr (.inl ⟨b, rfl, rfl⟩)
    · cases h; exact .inr (.inr (.inl ⟨rfl, rfl⟩))
  · have hsame : s.fr = t.fr := exec_sameUnit h hu nofun
    exact .inr (.inr (.inr ⟨hu, hsame.symm⟩))

/-- Outside an attempt FR.START is the one operation that changes FR (R161, R162, R213). -/
theorem exec_fr_of_inactive (h : exec i s = .next t) (hs : s.fr.state.active = false) (hi : i ≠ .frStart) :
    t.fr = s.fr := by
  rcases exec_fr_cases h with ⟨hstart, -⟩ | ⟨b, -, e⟩ | ⟨-, e⟩ | ⟨-, e⟩
  · exact absurd hstart hi
  · rw [e, frByte_of_inactive s.draws b hs]
  · rw [e, frTick_of_inactive hs]
  · exact e

/-- No operation enters IDLE: it says that nothing was started since reset (R32). -/
theorem exec_fr_state_ne_idle (h : exec i s = .next t) (hs : s.fr.state ≠ .idle) : t.fr.state ≠ .idle := by
  rcases exec_fr_cases h with ⟨-, e⟩ | ⟨b, -, e⟩ | ⟨-, e⟩ | ⟨-, e⟩ <;> rw [e]
  · exact frStart_state_ne_idle hs
  · exact frByte_state_ne_idle hs s.draws b
  · exact frTick_state_ne_idle hs
  · exact hs

/-- In an attempt the timer counts the ticks, and no other operation moves it (R216). -/
theorem exec_fr_timer_of_active (h : exec i s = .next t) (hs : s.fr.state.active = true)
    (htimer : s.fr.timer.toNat ≤ 200) : t.fr.timer.toNat = s.fr.timer.toNat + [i].count .frTick := by
  rcases exec_fr_cases h with ⟨rfl, e⟩ | ⟨b, rfl, e⟩ | ⟨rfl, e⟩ | ⟨hu, e⟩ <;> rw [e]
  · rw [frStart_of_active hs]; rfl
  · rw [frByte_timer]; rfl
  · rw [frTick_timer_of_active hs, BitVec.toNat_add]
    exact Nat.mod_eq_of_lt (show s.fr.timer.toNat + 1 < 2 ^ 16 by omega)
  · have hi : i ≠ .frTick := fun hi => hu (hi ▸ rfl)
    rw [List.count_singleton, if_neg (by simpa using hi), add_zero]

end

/-- Settles O31, by the action of the step. -/
theorem frFinishedStateLeftOnlyByStartOrReset : Obligations.FrFinishedStateLeftOnlyByStartOrReset := by
  intro s t h hs hreset hstart
  rcases step_cases h with ⟨ha, -⟩ | ⟨-, rfl⟩ | ⟨i, u, ha, hu, rfl⟩
  · exact absurd ha hreset
  · rfl
  · exact exec_fr_of_inactive (s := s.takeInput) (t := u) hu hs fun hi => hstart (hi ▸ ha)

/-- An attempt that runs has its deadline ahead (R37 item 4). -/
theorem fr_timer_le_of_active {s : State} (hinv : s.Inv) (hs : s.fr.state.active = true) : s.fr.timer.toNat ≤ 200 := by
  obtain ⟨-, hfr, -⟩ := hinv
  exact (hfr.attempting hs).timer_le

/-- The ticks left to the deadline and one more end a running attempt, whatever stands between them: each tick is counted
while the attempt runs, and the count cannot pass the deadline. -/
theorem runOps_take_ends_attempt {s : State} (hinv : s.Inv) (hs : s.fr.state.active = true) {is : List Instr}
    (hticks : 201 ≤ s.fr.timer.toNat + is.count .frTick) :
    ∃ k ≤ is.length, ∃ t, runOps (is.take k) s = .next t ∧
      (t.fr.state = .complete ∨ t.fr.state = .timedOut ∨ t.fr.state = .protocolError) := by
  have htimer := fr_timer_le_of_active hinv hs
  induction is generalizing s with
  | nil =>
    rw [List.count_nil] at hticks
    omega
  | cons i is ih =>
    obtain ⟨t, ht⟩ := exec_completes hinv i
    have hinv' := exec_inv hinv ht
    cases hactive : t.fr.state.active with
    | true =>
      have hcount : (i :: is).count .frTick = [i].count .frTick + is.count .frTick := List.count_append (l₁ := [i])
      have hmoved := exec_fr_timer_of_active ht hs htimer
      obtain ⟨k, hk, u, hu, hend⟩ := ih hinv' hactive (by omega) (fr_timer_le_of_active hinv' hactive)
      exact ⟨k + 1, Nat.succ_le_succ hk, u, by rwa [List.take_succ_cons, runOps_cons_of_next ht], hend⟩
    | false =>
      have hidle : t.fr.state ≠ .idle := exec_fr_state_ne_idle ht fun e => by simp [e] at hs
      exact ⟨1, Nat.succ_le_succ (Nat.zero_le _), t, by rwa [List.take_succ_cons, List.take_zero, runOps_singleton],
        (FrState.active_eq_false.1 hactive).resolve_left hidle⟩

/-- Settles O36: the accepted FR.START leaves an attempt with its timer at 0. -/
theorem readAttemptEndsByTheDeadline : Obligations.ReadAttemptEndsByTheDeadline := by
  intro s is hinv hs hticks
  have hstart := exec_frStart_of_inactive hs
  obtain ⟨k, hk, t, ht, hend⟩ := runOps_take_ends_attempt (exec_inv hinv hstart) rfl (is := is)
    (by rw [frFresh_timer]; exact hticks.trans (Nat.le_add_left _ _))
  exact ⟨k, hk, t, by rwa [runOps_cons_of_next hstart], hend⟩

end Sys2Proof.Machine
end

section
/-! A reply whose checksum byte is wrong (spec/43_frame_sync.md R157, R168 item 3): it is accumulated like any other, and
the closing header rejects it. -/

namespace Sys2Proof.Machine

/-- Wire bytes alone do to the block what they do to FR. -/
theorem runOps_frBytes (bs : List Byte) (s : State) :
    runOps (bs.map Instr.frByte) s = .next { s with fr := frDeliver s.draws bs s.fr } := by
  induction bs generalizing s with
  | nil => rfl
  | cons b bs ih =>
    rw [List.map_cons, runOps_cons_of_next (exec_frByte b s), ih]
    rfl

/-- The end-of-frame checks reject a frame of the right length whose last byte is not the checksum of the others
(R157). -/
theorem frFinalise_of_wrong_chk (d : Nat) {f : FrUnit} {body : List Byte} {c l : Byte}
    (hf : f.buf.filledTo f.count.val) (hbytes : f.buf.bytes = body ++ [c]) (hlen : body[3]? = some l)
    (hcount : l.toNat + 4 = body.length) (hc : c ≠ chk8 body) : frFinalise d f = raiseProtocolError .chkMismatch f := by
  have hl : f.count.val = body.length + 1 := by
    rw [← Memory.length_of_filledTo hf, ← Memory.bytes_length, hbytes, List.length_append, List.length_singleton]
  have hentry : frEntry d f 3 = l := by
    rw [← Option.some_inj, frEntry_of_filledTo d hf (by omega), hbytes, List.getElem?_append_left (by omega), hlen]
  have hlast : frEntry d f (f.count.val - 1) = c := by
    rw [← Option.some_inj, frEntry_of_filledTo d hf (by omega), hbytes, hl, Nat.add_sub_cancel, List.getElem?_concat_length]
  have hbody : frBytes d f (f.count.val - 1) = body := by
    rw [frBytes_of_filledTo d hf (Nat.sub_le _ 1), hbytes, hl, Nat.add_sub_cancel, List.take_left]
  rw [frFinalise, hentry, hlast, hbody, if_neg (by simp; omega), if_neg (by omega), if_pos hc.symm]

/-- A sequence of at most 45 bytes, stuffed and between headers, is accumulated by a fresh attempt and then checked
(R145 to R154). -/
theorem runOps_frStart_frame {s : State} (hs : s.fr.state.active = false) {bs : List Byte} (hlen : bs.length ≤ 45) :
    ∃ g : FrUnit, g.HasRead bs ∧
      runOps (.frStart :: .frByte hdr :: ((stuff bs).map Instr.frByte ++ [.frByte hdr])) s =
        .next { s with fr := frFinalise s.draws g } := by
  have hread := frDeliver_stuff s.draws (bs := bs) (frByte_hdr_frFresh s.draws) (by rwa [List.length_nil, Nat.zero_add])
  rw [List.nil_append] at hread
  refine ⟨_, hread, ?_⟩
  have hrun := runOps_frBytes (hdr :: (stuff bs ++ [hdr])) { s with fr := frFresh }
  rw [List.map_cons, List.map_append, frDeliver_cons, frDeliver_append] at hrun
  rw [runOps_cons_of_next (exec_frStart_of_inactive hs), ← frByte_hdr hread]
  exact hrun

/-- Settles O35: the length byte is right, so the closing header gets to the checksum and rejects it. -/
theorem wrongChecksumIsRejected : Obligations.WrongChecksumIsRejected := by
  intro s addr cmd st c payload hs hlen hc
  obtain ⟨g, hg, hrun⟩ := runOps_frStart_frame hs
    (bs := addr :: cmd :: st :: BitVec.ofNat 8 payload.length :: (payload ++ [c])) (by simp; omega)
  have hreject := frFinalise_of_wrong_chk s.draws hg.filled hg.bytes_eq
    (body := addr :: cmd :: st :: BitVec.ofNat 8 payload.length :: payload) rfl
    (by rw [toNat_ofNat_of_le (by omega)]; rfl) hc
  rw [hreject] at hrun
  refine ⟨_, hrun, rfl, rfl, rfl, ?_⟩
  rw [raiseProtocolError_count, hg.count_eq]
  simp

end Sys2Proof.Machine
end

section
/-! WR operation by operation (spec/44_word_reader.md R170 to R181): what automatic exhaustion and a passing group leave
in each field, everything WR.BYTE can do in READING, and WR.END. -/

namespace Sys2Proof.Machine

/-! Automatic exhaustion writes the state alone (R179). -/

section
variable (w : WrUnit)

theorem wrAutoExhaust_frame : wrAutoExhaust w = { w with state := (wrAutoExhaust w).state } := by
  unfold wrAutoExhaust
  split <;> rfl

@[simp] theorem wrAutoExhaust_expect : (wrAutoExhaust w).expect = w.expect := by rw [wrAutoExhaust_frame]
@[simp] theorem wrAutoExhaust_req : (wrAutoExhaust w).req = w.req := by rw [wrAutoExhaust_frame]
@[simp] theorem wrAutoExhaust_raw : (wrAutoExhaust w).raw = w.raw := by rw [wrAutoExhaust_frame]
@[simp] theorem wrAutoExhaust_phase : (wrAutoExhaust w).phase = w.phase := by rw [wrAutoExhaust_frame]
@[simp] theorem wrAutoExhaust_d0 : (wrAutoExhaust w).d0 = w.d0 := by rw [wrAutoExhaust_frame]
@[simp] theorem wrAutoExhaust_d1 : (wrAutoExhaust w).d1 = w.d1 := by rw [wrAutoExhaust_frame]
@[simp] theorem wrAutoExhaust_count : (wrAutoExhaust w).count = w.count := by rw [wrAutoExhaust_frame]

theorem wrExhaust_state : (wrExhaust w).state = if w.count = 0 then .errNoData else .errShort := by
  simp only [wrExhaust, raiseWr_state, Fin.ext_iff, Fin.val_zero]

end

theorem wrAutoExhaust_state_of_reading {w : WrUnit} (hs : w.state = .reading) :
    (wrAutoExhaust w).state =
      if w.raw.val = w.req.val then (if w.count = 0 then .errNoData else .errShort) else .reading := by
  by_cases hlast : w.raw.val = w.req.val
  · rw [if_pos hlast, wrAutoExhaust, if_pos ⟨hs, Fin.ext hlast⟩, wrExhaust_state]
  · rw [if_neg hlast, wrAutoExhaust, if_neg fun ⟨_, hend⟩ => hlast (congrArg Fin.val hend), hs]

section
variable {w : WrUnit} (h : w.count.val + 2 < Config.wrBufCap + 1)

@[simp] theorem passed_d0 : (w.passed h).d0 = w.d0 := by unfold WrUnit.passed wrComplete; split <;> rfl
@[simp] theorem passed_d1 : (w.passed h).d1 = w.d1 := by unfold WrUnit.passed wrComplete; split <;> rfl

/-- After a passing group completion comes before exhaustion, and exhaustion finds a count above 0 (R178, R179). -/
theorem wrAutoExhaust_passed_state (hs : w.state = .reading) :
    (wrAutoExhaust (w.passed h)).state = if w.expect.val ≤ w.count.val + 2 then .done
      else if w.raw.val = w.req.val then .errShort else .reading := by
  have hstate := passed_state w h
  split
  case isTrue hdone =>
    rw [if_pos hdone] at hstate
    rw [wrAutoExhaust_of_not_reading (by simp [hstate]), hstate]
  case isFalse hmore =>
    rw [if_neg hmore, hs] at hstate
    have hcount : (w.passed h).count ≠ 0 := fun e => by simpa using (passed_count w h).symm.trans (congrArg Fin.val e)
    rw [wrAutoExhaust_state_of_reading hstate, passed_raw, passed_req, if_neg hcount]

end

section
variable {w v : WrUnit} {b : Byte}

/-- WR.BYTE answers where neither `wr_raw` nor `wr_count` would leave its range (log 7). -/
theorem exists_wrByte_eq_some (b : Byte) (hraw : w.raw.val < 60) (hc : w.phase = .crc → w.count.val ≤ 38) :
    ∃ v, wrByte b w = some v := by
  refine Option.ne_none_iff_exists'.1 fun hnone => ?_
  obtain ⟨-, h60 | ⟨hp, -, hfull⟩⟩ := wrByte_eq_none.1 hnone
  · omega
  · exact absurd (hc hp) (Nat.not_le.2 hfull)

variable (hs : w.state = .reading)
include hs

/-- Everything WR.BYTE can do in READING (R174). -/
theorem wrByte_cases (h : wrByte b w = some v) : ∃ hr,
    (w.phase = .first ∧ v = wrAutoExhaust { w.counted hr with d0 := b, phase := .second }) ∨
    (w.phase = .second ∧ v = wrAutoExhaust { w.counted hr with d1 := b, phase := .crc }) ∨
    (w.phase = .crc ∧ b ≠ crc8Word w.d0 w.d1 ∧ v = raiseWr .errCrc { w.counted hr with phase := .first }) ∨
    (w.phase = .crc ∧ b = crc8Word w.d0 w.d1 ∧ ∃ hc, v = wrAutoExhaust ((w.counted hr).passed hc)) := by
  rw [wrByte_of_reading b hs] at h
  rcases wrReadingByte_cases b w with ⟨hr, e⟩ | ⟨-, e⟩
  case inr => cases e.symm.trans h
  refine ⟨hr, ?_⟩
  rw [e] at h
  rcases wrPhaseByte_cases b (w.counted hr) with
      ⟨hp, e⟩ | ⟨hp, e⟩ | ⟨hp, hb, e⟩ | ⟨hp, hb, hc, e⟩ | ⟨-, -, -, e⟩ <;> rw [e] at h <;> cases h
  · exact .inl ⟨hp, rfl⟩
  · exact .inr (.inl ⟨hp, rfl⟩)
  · exact .inr (.inr (.inl ⟨hp, hb, wrAutoExhaust_of_not_reading nofun⟩))
  · exact .inr (.inr (.inr ⟨hp, hb, hc, rfl⟩))

/-- In every phase one raw byte more has been consumed, of the same request (R174). -/
theorem wrByte_counts (h : wrByte b w = some v) :
    v.raw.val = w.raw.val + 1 ∧ v.expect = w.expect ∧ v.req = w.req := by
  obtain ⟨hr, ⟨-, rfl⟩ | ⟨-, rfl⟩ | ⟨-, -, rfl⟩ | ⟨-, -, hc, rfl⟩⟩ := wrByte_cases hs h <;> simp

theorem wrEnd_of_reading : wrEnd w = { w with state := if w.count = 0 then .errNoData else .errShort } := by
  rw [wrEnd, if_pos hs, ← wrExhaust_state]
  rfl

end

theorem wrEnd_of_not_reading {w : WrUnit} (hs : w.state ≠ .reading) : wrEnd w = w := if_neg hs

theorem expectedLength_of_le {n : Byte} (h : n.toNat ≤ 40) : ∃ e, expectedLength n = some e ∧ e.val = n.toNat :=
  ⟨⟨n.toNat, Nat.lt_succ_of_le h⟩, expectedLength_eq_some.2 rfl, rfl⟩

/-- Settles O37, by the state test and the parameter test of R170. -/
theorem wrStartBeginsARead : Obligations.WrStartBeginsARead := by
  intro s n
  refine ⟨by rw [decode_append]; rfl, exec_wrStart_of_reading n, fun hs hn => ?_, fun hs hn => ?_⟩
  · exact exec_wrStart_of_none hs (expectedLength_eq_none.2 hn)
  · obtain ⟨e, he, hval⟩ := expectedLength_of_le hn
    rw [← hval]
    exact ⟨_, exec_wrStart_of_length hs he, rfl, rfl, rfl, rfl, rfl, rfl, rfl, rfl, Memory.read_nil, rfl⟩

/-- Settles O38, by the cases of WR.BYTE in READING. -/
theorem wrByteConsumesOneRawByte : Obligations.WrByteConsumesOneRawByte := by
  intro s b hs hraw hc
  obtain ⟨v, hv⟩ := exists_wrByte_eq_some b hraw hc
  obtain ⟨hcounted, hexpect, hreq⟩ := wrByte_counts hs hv
  refine ⟨by rw [decode_append]; rfl, _, exec_wrByte_of_some hv, rfl, hcounted, hexpect, hreq, ?_⟩
  obtain ⟨hr, ⟨hp, rfl⟩ | ⟨hp, rfl⟩ | ⟨hp, hb, rfl⟩ | ⟨hp, hb, hc, rfl⟩⟩ := wrByte_cases hs hv
  all_goals rw [hp]
  · exact ⟨fun _ => ⟨by simp, by simp, wrAutoExhaust_state_of_reading hs⟩, fun _ => by simp, nofun, nofun⟩
  · exact ⟨fun _ => ⟨by simp, by simp, wrAutoExhaust_state_of_reading hs⟩, nofun, fun _ => by simp, nofun⟩
  · exact ⟨nofun, nofun, nofun, fun _ => by simp [hb]⟩
  · refine ⟨nofun, nofun, nofun, fun _ => ⟨by simp, by simp, by simp, ?_⟩⟩
    rw [if_pos hb]
    refine ⟨by simp, by simp [Memory.read_write_other], by simp, fun i h0 h1 => ?_, wrAutoExhaust_passed_state hc hs⟩
    simp [Memory.read_write_other, h0, h1]

/-- Settles O39. -/
theorem wrEndAndIgnoredOperations : Obligations.WrEndAndIgnoredOperations := by
  intro s b
  refine ⟨by rw [decode_append]; rfl, fun hs => ?_, fun hs => ⟨?_, exec_wrByte_of_some (wrByte_of_not_reading b hs)⟩⟩
  · rw [exec_wrEnd, wrEnd_of_reading hs]
  · rw [exec_wrEnd, wrEnd_of_not_reading hs]

end Sys2Proof.Machine
end

section
/-! A read under operations of every unit: WR rests outside READING (spec/44_word_reader.md R181, R213), and a running read
ends with its request or by WR.END (R186). -/

namespace Sys2Proof.Machine

/-- The states in which a read has ended (R18). -/
theorem wrState_ended_iff {x : WrState} :
    (x = .done ∨ x = .errCrc ∨ x = .errNoData ∨ x = .errShort) ↔ x ≠ .reading ∧ x ≠ .idle := by
  cases x <;> simp

section
variable {w v : WrUnit} (hs : w.state = .reading)
include hs

/-! No operation of WR in READING enters IDLE (R34). -/

theorem wrAutoExhaust_state_ne_idle : (wrAutoExhaust w).state ≠ .idle := by
  rw [wrAutoExhaust_state_of_reading hs]
  split_ifs <;> nofun

theorem wrByte_state_ne_idle {b : Byte} (h : wrByte b w = some v) : v.state ≠ .idle := by
  obtain ⟨hr, ⟨-, rfl⟩ | ⟨-, rfl⟩ | ⟨-, -, rfl⟩ | ⟨-, -, hc, rfl⟩⟩ := wrByte_cases hs h
  · exact wrAutoExhaust_state_ne_idle hs
  · exact wrAutoExhaust_state_ne_idle hs
  · nofun
  · rw [wrAutoExhaust_passed_state hc hs]
    split_ifs <;> nofun

theorem wrEnd_ended : (wrEnd w).state ≠ .reading ∧ (wrEnd w).state ≠ .idle := by
  rw [wrEnd_of_reading hs]
  dsimp only
  split_ifs <;> exact ⟨nofun, nofun⟩

end

section
variable {i : Instr} {s t : State}

theorem isWrByte_of_unitOf_ne_wr (hu : i.unitOf ≠ .wr) : i.isWrByte = false := by
  cases i
  case wrByte b => exact absurd rfl hu
  all_goals rfl

/-- Everything an operation but WR.START can do to WR. -/
theorem exec_wr_cases (h : exec i s = .next t) :
    (∃ n, i = .wrStart n) ∨ (∃ b, i = .wrByte b ∧ wrByte b s.wr = some t.wr) ∨
    (i = .wrEnd ∧ t.wr = wrEnd s.wr) ∨ (i.unitOf ≠ .wr ∧ t.wr = s.wr) := by
  by_cases hu : i.unitOf = .wr
  · rcases unitOf_eq_wr.1 hu with ⟨n, rfl⟩ | ⟨b, rfl⟩ | rfl
    · exact .inl ⟨n, rfl⟩
    · rcases exec_wrByte_cases b s with ⟨w, hw, e⟩ | ⟨-, e⟩ <;> cases e.symm.trans h
      exact .inr (.inl ⟨b, rfl, hw⟩)
    · cases h; exact .inr (.inr (.inl ⟨rfl, rfl⟩))
  · have hsame : s.wr = t.wr := exec_sameUnit h hu nofun
    exact .inr (.inr (.inr ⟨hu, hsame.symm⟩))

/-- Outside READING, WR.START is the one operation that changes WR (R181, R213). -/
theorem exec_wr_of_not_reading (h : exec i s = .next t) (hs : s.wr.state ≠ .reading) (hi : ∀ n, i ≠ .wrStart n) :
    t.wr = s.wr := by
  rcases exec_wr_cases h with ⟨n, hn⟩ | ⟨b, -, e⟩ | ⟨-, e⟩ | ⟨-, e⟩
  · exact absurd hn (hi n)
  · exact (Option.some.inj ((wrByte_of_not_reading b hs).symm.trans e)).symm
  · rw [e, wrEnd_of_not_reading hs]
  · exact e

/-- An operation ends a running read, or is not WR.END and counts a raw byte if it is WR.BYTE (R171, R174, R180). -/
theorem exec_wr_of_reading (h : exec i s = .next t) (hs : s.wr.state = .reading) :
    (t.wr.state ≠ .reading ∧ t.wr.state ≠ .idle) ∨
    (t.wr.state = .reading ∧ i ≠ .wrEnd ∧ t.wr.req = s.wr.req ∧
      t.wr.raw.val = s.wr.raw.val + [i].countP Instr.isWrByte) := by
  rcases exec_wr_cases h with ⟨n, rfl⟩ | ⟨b, rfl, e⟩ | ⟨-, e⟩ | ⟨hu, e⟩
  · cases (exec_wrStart_of_reading n hs).symm.trans h
    exact .inr ⟨hs, nofun, rfl, rfl⟩
  · obtain ⟨hraw, -, hreq⟩ := wrByte_counts hs e
    by_cases hreading : t.wr.state = .reading
    · exact .inr ⟨hreading, nofun, hreq, hraw⟩
    · exact .inl ⟨hreading, wrByte_state_ne_idle hs e⟩
  · exact .inl (e ▸ wrEnd_ended hs)
  · have hcount : [i].countP Instr.isWrByte = 0 := by rw [List.countP_singleton, isWrByte_of_unitOf_ne_wr hu]; rfl
    exact .inr ⟨e ▸ hs, fun hi => hu (hi ▸ rfl), by rw [e], by rw [e, hcount, add_zero]⟩

end

/-- Settles O41, by the action of the step. -/
theorem wrFinishedStateLeftOnlyByStartOrReset : Obligations.WrFinishedStateLeftOnlyByStartOrReset := by
  intro s t h hs hreset hstart
  rcases step_cases h with ⟨ha, -⟩ | ⟨-, rfl⟩ | ⟨i, u, ha, hu, rfl⟩
  · exact absurd ha hreset
  · rfl
  · exact exec_wr_of_not_reading (s := s.takeInput) (t := u) hu hs fun n hi => hstart n (hi ▸ ha)

/-- WR.END, or as many WR.BYTE as the request has raw bytes left, end a running read, whatever stands between them: each
raw byte is counted while the read runs, and a running read has some left. -/
theorem runOps_take_ends_read {s : State} (hinv : s.Inv) (hs : s.wr.state = .reading) {is : List Instr}
    (henough : .wrEnd ∈ is ∨ s.wr.req.val ≤ s.wr.raw.val + is.countP Instr.isWrByte) :
    ∃ k ≤ is.length, ∃ t, runOps (is.take k) s = .next t ∧
      (t.wr.state = .done ∨ t.wr.state = .errCrc ∨ t.wr.state = .errNoData ∨ t.wr.state = .errShort) := by
  induction is generalizing s with
  | nil =>
    obtain ⟨-, -, hwr⟩ := hinv
    exact absurd (henough.resolve_left List.not_mem_nil) (Nat.not_le.2 (hwr.raw_lt hs))
  | cons i is ih =>
    obtain ⟨t, ht⟩ := exec_completes hinv i
    rcases exec_wr_of_reading ht hs with hended | ⟨hreading, hi, hreq, hraw⟩
    · exact ⟨1, Nat.succ_le_succ (Nat.zero_le _), t, by rwa [List.take_succ_cons, List.take_zero, runOps_singleton],
        wrState_ended_iff.2 hended⟩
    · have hcount : (i :: is).countP Instr.isWrByte = [i].countP Instr.isWrByte + is.countP Instr.isWrByte :=
        List.countP_append (l₁ := [i])
      have hrest : .wrEnd ∈ is ∨ t.wr.req.val ≤ t.wr.raw.val + is.countP Instr.isWrByte :=
        henough.imp (fun hend => (List.mem_cons.1 hend).resolve_left hi.symm) (fun hbytes => by rw [hreq]; omega)
      obtain ⟨k, hk, u, hu, hend⟩ := ih (exec_inv hinv ht) hreading hrest
      exact ⟨k + 1, Nat.succ_le_succ hk, u, by rwa [List.take_succ_cons, runOps_cons_of_next ht], hend⟩

/-- Settles O46: the accepted WR.START leaves a running read with nothing consumed. -/
theorem wordReadEnds : Obligations.WordReadEnds := by
  intro s n is hinv hs htwo hle henough
  obtain ⟨e, he, hval⟩ := expectedLength_of_le hle
  have hstart := exec_wrStart_of_length hs he
  have hbegin := wrBegin_hasRead (hval ▸ htwo)
  have hreading : (wrBegin e).state = .reading := hbegin.state_eq.trans (if_pos (by rw [List.length_nil]; omega))
  obtain ⟨k, hk, t, ht, hend⟩ := runOps_take_ends_read (exec_inv hinv hstart) hreading (is := is)
    (henough.imp_right fun hbytes => by rw [hbegin.req_eq, hval]; exact hbytes.trans (Nat.le_add_left _ _))
  exact ⟨k, hk, t, by rwa [runOps_cons_of_next hstart], hend⟩

end Sys2Proof.Machine
end

section
/-! Reads that end otherwise than DONE (spec/44_word_reader.md R173, R176, R179, R180): after any number of good groups, a
bad group, an early end, or the end of a request of odd length. -/

namespace Sys2Proof.Machine

theorem runOps_append {is : List Instr} {s t : State} (h : runOps is s = .next t) (js : List Instr) :
    runOps (is ++ js) s = runOps js t := by
  induction is generalizing s with
  | nil => cases h; rfl
  | cons i is ih =>
    cases hi : exec i s with
    | next a =>
      rw [runOps_cons_of_next hi] at h
      rw [List.cons_append, runOps_cons_of_next hi, ih h]
    | fault r => rw [runOps, hi] at h; cases h
    | refused r => exact absurd hi (exec_ne_refused i s r)

theorem wrBytes_cons {b : Byte} {w v : WrUnit} (h : wrByte b w = some v) (bs : List Byte) :
    wrBytes (b :: bs) w = wrBytes bs v := by
  rw [wrBytes, List.foldlM_cons, h]
  rfl

/-- Raw bytes after the end of a read are dropped (R181). -/
theorem wrBytes_of_not_reading {w : WrUnit} (hs : w.state ≠ .reading) (bs : List Byte) : wrBytes bs w = some w := by
  induction bs with
  | nil => rfl
  | cons b bs ih => rw [wrBytes_cons (wrByte_of_not_reading b hs), ih]

/-- The common opening of a read: WR.START, then good groups that leave at least two data bytes to collect. -/
theorem runOps_wrStart_i2cReply {s : State} {n : Byte} {words : List (Byte × Byte)} (hs : s.wr.state ≠ .reading)
    (hlen : 2 * words.length + 1 < n.toNat) (hle : n.toNat ≤ 40) :
    ∃ w : WrUnit, w.HasRead n.toNat words ∧ ∀ is,
      runOps (.wrStart n :: ((i2cReply words).map Instr.wrByte ++ is)) s = runOps is { s with wr := w } := by
  obtain ⟨e, he, hval⟩ := expectedLength_of_le hle
  have hbegin : (wrBegin e).HasRead n.toNat [] := hval ▸ wrBegin_hasRead (by omega)
  obtain ⟨w, ew, hw⟩ := wrBytes_i2cReply hbegin (more := words) (.inr (by rw [List.length_nil, Nat.zero_add]; exact hlen))
  refine ⟨w, hw, fun is => ?_⟩
  rw [runOps_cons_of_next (exec_wrStart_of_length hs he)]
  exact runOps_append (runOps_wrByte (s := { s with wr := wrBegin e }) ew) is

/-- What such an opening leaves: READING at the first byte of a group that the request still covers (R173). -/
theorem WrUnit.HasRead.reading {w : WrUnit} {n : Nat} {ws : List (Byte × Byte)} (h : w.HasRead n ws)
    (hlen : 2 * ws.length + 1 < n) : w.state = .reading ∧ w.raw.val + 2 < w.req.val := by
  refine ⟨h.state_eq.trans (if_pos (by omega)), ?_⟩
  rw [h.raw_eq, h.req_eq]
  omega

/-- The bytes collected stay at the read port as long as the count and the buffer stay (R53). -/
theorem memRead_of_collected {s : State} {w : WrUnit} {n : Nat} {ws : List (Byte × Byte)} (h : w.HasRead n ws)
    (hcount : s.wr.count = w.count) (hbuf : s.wr.buf = w.buf) {j : Nat} (hj : j < (wordBytes ws).length) :
    memRead s (BitVec.ofNat 8 (0x80 + j)) = (wordBytes ws)[j] := by
  have hread := memRead_of_hasRead (s := { s with wr := w }) h hj
  have hlt : j < 40 := by
    have := w.count_le
    rw [← h.bytes_eq, Memory.bytes_length, Memory.length_of_filledTo h.filled] at hj
    omega
  rw [memRead_wrBuf _ hlt] at hread ⊢
  rw [← hread, wrEntry, wrEntry, hcount, hbuf]

/-- The CRC byte of a bad group (R176). -/
theorem wrByte_wrong_crc {w : WrUnit} {c : Byte} (hs : w.state = .reading) (hp : w.phase = .crc)
    (hraw : w.raw.val < 60) (hc : w.count.val ≤ 38) (hne : c ≠ crc8Word w.d0 w.d1) :
    ∃ h, wrByte c w = some (raiseWr .errCrc { w.counted h with phase := .first }) := by
  obtain ⟨v, hv⟩ := exists_wrByte_eq_some c hraw fun _ => hc
  obtain ⟨h, ⟨hp', -⟩ | ⟨hp', -⟩ | ⟨-, -, rfl⟩ | ⟨-, hcrc, -⟩⟩ := wrByte_cases hs hv
  · cases hp.symm.trans hp'
  · cases hp.symm.trans hp'
  · exact ⟨h, hv⟩
  · exact absurd hcrc hne

/-- A bad group, and whatever follows it (R176, R181). -/
theorem wrBytes_bad_group {w : WrUnit} {c d0 d1 : Byte} (hs : w.state = .reading) (hp : w.phase = .first)
    (hraw : w.raw.val + 2 < w.req.val) (hc : w.count.val ≤ 38) (hne : c ≠ crc8Word d0 d1) (rest : List Byte) :
    ∃ v, wrBytes (d0 :: d1 :: c :: rest) w = some v ∧ v.state = .errCrc ∧ v.d0 = d0 ∧ v.d1 = d1 ∧ v.phase = .first ∧
      v.raw.val = w.raw.val + 3 ∧ v.count = w.count ∧ v.buf = w.buf := by
  obtain ⟨hdata, edata⟩ := wrBytes_data hs hp hraw d0 d1
  have hreq := w.req_le
  obtain ⟨h, ecrc⟩ := wrByte_wrong_crc (w := w.withData d0 d1 hdata) hs rfl (by show w.raw.val + 2 < 60; omega) hc hne
  have hrest := (wrBytes_cons ecrc rest).trans (wrBytes_of_not_reading (by simp) rest)
  exact ⟨_, (wrBytes_append (bs := [d0, d1]) edata).trans hrest, rfl, rfl, rfl, rfl, rfl, rfl, rfl⟩

/-- Settles O43: the good groups, then the bad one. -/
theorem badGroupEndsTheRead : Obligations.BadGroupEndsTheRead := by
  intro s words d0 d1 c n rest hs hlen hle hne
  obtain ⟨w, hw, hrun⟩ := runOps_wrStart_i2cReply (words := words) hs (by omega) hle
  obtain ⟨hreading, hraw⟩ := hw.reading (by omega)
  have hcount := hw.count_eq
  obtain ⟨v, ev, hstate, hd0, hd1, hphase, hvraw, hvcount, hvbuf⟩ :=
    wrBytes_bad_group hreading hw.phase_eq hraw (by omega) hne rest
  refine ⟨{ s with wr := v }, ?_, rfl, hstate, hd0, hd1, hphase, ?_, ?_, fun j => memRead_of_collected hw hvcount hvbuf⟩
  · rw [List.map_append, hrun, runOps_wrByte (s := { s with wr := w }) ev]
  · rw [hvcount, hcount]
  · rw [hvraw, hw.raw_eq]

/-- The bytes of an unfinished group are consumed and not collected (R175, R179). -/
theorem wrBytes_part {w : WrUnit} (hs : w.state = .reading) (hp : w.phase = .first) (hraw : w.raw.val + 2 < w.req.val)
    {part : List Byte} (hlen : part.length ≤ 2) :
    ∃ v, wrBytes part w = some v ∧ v.state = .reading ∧ v.phase.index = part.length ∧
      v.raw.val = w.raw.val + part.length ∧ v.count = w.count ∧ v.buf = w.buf := by
  match part with
  | [] => exact ⟨w, rfl, hs, by rw [hp]; rfl, rfl, rfl, rfl⟩
  | [d0] =>
    obtain ⟨h, e⟩ := wrByte_first hs d0 hp (by omega)
    exact ⟨_, wrBytes_cons e [], hs, rfl, rfl, rfl, rfl⟩
  | [d0, d1] =>
    obtain ⟨h, e⟩ := wrBytes_data hs hp hraw d0 d1
    exact ⟨_, e, hs, rfl, rfl, rfl, rfl⟩
  | _ :: _ :: _ :: _ => simp at hlen

/-- Settles O44: the good groups, the bytes of the unfinished one, and WR.END. -/
theorem shortReplyEndsTheRead : Obligations.ShortReplyEndsTheRead := by
  intro s words part n hs hlen hle hpart
  obtain ⟨w, hw, hrun⟩ := runOps_wrStart_i2cReply (words := words) hs (by omega) hle
  obtain ⟨hreading, hraw⟩ := hw.reading (by omega)
  obtain ⟨v, ev, hstate, hphase, hvraw, hvcount, hvbuf⟩ := wrBytes_part hreading hw.phase_eq hraw hpart
  have hnone : v.count = 0 ↔ words = [] := by
    rw [hvcount, Fin.ext_iff, hw.count_eq, ← List.length_eq_zero_iff]
    simp
  refine ⟨{ s with wr := wrEnd v }, ?_, rfl, ?_⟩
  · rw [List.map_append, List.append_assoc, hrun, runOps_append (runOps_wrByte (s := { s with wr := w }) ev),
      runOps_singleton, exec_wrEnd]
  rw [wrEnd_of_reading hstate]
  refine ⟨by simp only [hnone], hphase, ?_, ?_, fun j => memRead_of_collected hw hvcount hvbuf⟩
  · exact (congrArg Fin.val hvcount).trans hw.count_eq
  · exact hvraw.trans (by rw [hw.raw_eq])

/-- The CRC byte of a good group that is the last of the request, where more data bytes are expected (R179). -/
theorem wrByte_crc_exhausts {w : WrUnit} (hs : w.state = .reading) (hp : w.phase = .crc)
    (hmore : w.count.val + 2 < w.expect.val) (hlast : w.raw.val + 1 = w.req.val) :
    ∃ v, wrByte (crc8Word w.d0 w.d1) w = some v ∧ v.state = .errShort ∧ v.count.val = w.count.val + 2 := by
  have := w.req_le
  have := w.expect_le
  obtain ⟨v, hv⟩ := exists_wrByte_eq_some (crc8Word w.d0 w.d1) (w := w) (by omega) fun _ => by omega
  refine ⟨v, hv, ?_⟩
  obtain ⟨h, ⟨hp', -⟩ | ⟨hp', -⟩ | ⟨-, hne, -⟩ | ⟨-, -, hc, rfl⟩⟩ := wrByte_cases hs hv
  · cases hp.symm.trans hp'
  · cases hp.symm.trans hp'
  · exact absurd rfl hne
  · rw [wrAutoExhaust_passed_state hc hs, wrAutoExhaust_count]
    exact ⟨(if_neg (Nat.not_le.2 hmore)).trans (if_pos hlast), passed_count _ hc⟩

/-- The last whole group of a request of odd length (R173, R179). -/
theorem wrBytes_group_exhausts {w : WrUnit} {n : Nat} {ws : List (Byte × Byte)} (h : w.HasRead n ws)
    (hn : n = 2 * ws.length + 3) (d0 d1 : Byte) :
    ∃ v, wrBytes (i2cGroup d0 d1) w = some v ∧ v.state = .errShort ∧ v.count.val = 2 * ws.length + 2 ∧ v.raw = v.req := by
  obtain ⟨hs, hraw⟩ := h.reading (by omega)
  obtain ⟨hdata, edata⟩ := wrBytes_data hs h.phase_eq hraw d0 d1
  have hcount := h.count_eq
  have hraw := h.raw_eq
  have hreq := h.req_eq
  have hexpect := h.expect_eq
  obtain ⟨v, ev, hstate, hvcount⟩ := wrByte_crc_exhausts (w := w.withData d0 d1 hdata) hs rfl
    (by show w.count.val + 2 < w.expect.val; omega) (by show w.raw.val + 2 + 1 = w.req.val; omega)
  obtain ⟨hvraw, -, hvreq⟩ := wrByte_counts (w := w.withData d0 d1 hdata) hs ev
  refine ⟨v, (wrBytes_append (bs := [d0, d1]) edata).trans (wrBytes_cons ev []), hstate, ?_, Fin.ext ?_⟩
  · exact hvcount.trans (congrArg (· + 2) hcount)
  · rw [hvraw, hvreq]
    show w.raw.val + 2 + 1 = w.req.val
    omega

/-- Settles O45: all groups but the last, and the last one with the end of the request. -/
theorem oddLengthEndsShort : Obligations.OddLengthEndsShort := by
  intro s words hs hne hlen
  obtain ⟨init, ⟨d0, d1⟩, rfl⟩ := (List.eq_nil_or_concat' words).resolve_left hne
  rw [List.length_append, List.length_singleton] at hlen ⊢
  have hn : (BitVec.ofNat 8 (2 * (init.length + 1) + 1)).toNat = 2 * init.length + 3 := toNat_ofNat_of_le (by omega)
  obtain ⟨w, hw, hrun⟩ := runOps_wrStart_i2cReply (words := init) hs (n := BitVec.ofNat 8 (2 * (init.length + 1) + 1))
    (by omega) (by omega)
  obtain ⟨v, ev, hstate, hcount, hraw⟩ := wrBytes_group_exhausts hw hn d0 d1
  have hreply : i2cReply (init ++ [(d0, d1)]) = i2cReply init ++ i2cGroup d0 d1 := by
    rw [i2cReply, List.flatMap_append]; simp [i2cReply]
  refine ⟨{ s with wr := v }, ?_, rfl, hstate, hcount, hraw⟩
  rw [hreply, List.map_append, hrun, runOps_wrByte (s := { s with wr := w }) ev]

end Sys2Proof.Machine
end

section
/-! SYS: NOP and the step without an operation, and the reserved opcodes (spec/45_system.md R190, R193). -/

namespace Sys2Proof.Machine

/-- R82: whatever the argument bits. -/
theorem decode_nop (a : Byte) : decode (0x0#4 ++ a) = .nop := by rw [decode_append]; rfl
theorem decode_reservedE (a : Byte) : decode (0xE#4 ++ a) = .reservedE := by rw [decode_append]; rfl
theorem decode_reservedF (a : Byte) : decode (0xF#4 ++ a) = .reservedF := by rw [decode_append]; rfl

/-- R206: `ill_op` is all there is in SYS. -/
theorem raiseIllegalOperation_eq (y : SysUnit) : raiseIllegalOperation y = ⟨true⟩ := rfl

/-- R85: the pins ask for nothing, whatever is on `op`; the companion of `PortIn.action_of_opValid`. -/
theorem PortIn.action_of_idle {p : PortIn} (hrst : p.rst = false) (hvalid : p.opValid = false) :
    p.action = .nothing := by
  simp [PortIn.action, hrst, hvalid]

/-- R190: a step that executes NOP is a step that executes nothing (`step_nothing`). -/
theorem step_nop {s : State} (h : s.action = .execute .nop) : step s = .next s.takeInput.endStep :=
  step_execute h (exec_nop _)

/-- Settles O9: the idle step and the step with a NOP word have different actions and do the same to the same state. -/
theorem nopAndIdleStepChangeNothing : Obligations.NopAndIdleStepChangeNothing := by
  refine ⟨decode_nop, exec_nop, fun s p rest a hin hrst hvalid => ?_⟩
  have hidle : step s = .next { s with inputs := rest, draws := s.draws + 1 } := by
    rw [step_nothing ((State.action_of_inputs hin).trans (PortIn.action_of_idle hrst hvalid)),
      State.takeInput_of_inputs hin, State.endStep]
  refine ⟨hidle, ?_⟩
  rw [hidle, step_nop]
  · rw [State.takeInput_of_inputs rfl, State.endStep]
  · rw [State.action_of_inputs rfl, ← decode_nop a]
    exact PortIn.action_of_opValid hrst rfl

/-- Settles O47: each of the two words decodes to its reserved operation, which raises IllegalOperation. -/
theorem reservedOpcodesSetIllOpOnly : Obligations.ReservedOpcodesSetIllOpOnly := by
  intro s a
  rw [decode_reservedE, decode_reservedF, exec_reservedE, exec_reservedF, raiseIllegalOperation_eq]
  exact ⟨rfl, rfl⟩

end Sys2Proof.Machine
end

section
/-! The changes of FR (spec/60_exceptions.md R201, R202, R216): which operation enters which state, and which moves the
timer. -/

namespace Sys2Proof.Machine

section
variable (d : Nat) (b : Byte) (f : FrUnit)

theorem frStore_state_cases : (frStore b f).state = f.state ∨ (frStore b f).state = .protocolError := by
  rcases frStore_cases b f with ⟨_, e⟩ | ⟨-, e⟩ <;> rw [e]
  · exact .inl rfl
  · exact .inr rfl

theorem frUnstuff_state_cases : (frUnstuff b f).state = f.state ∨ (frUnstuff b f).state = .protocolError := by
  cases hb : unstuffMap b with
  | some v =>
    rw [frUnstuff_of_replacement hb]
    exact frStore_state_cases v { f with pend := false }
  | none =>
    rw [frUnstuff_of_not_replacement hb]
    exact .inr rfl

theorem frFinalise_state_cases : (frFinalise d f).state = .complete ∨ (frFinalise d f).state = .protocolError := by
  rcases frFinalise_cases d f with ⟨c, -, e⟩ | ⟨e, -⟩ <;> rw [e]
  · exact .inr rfl
  · exact .inl rfl

/-- A header moves FR on, from AWAIT_HEADER and from READING; any other change FR.BYTE makes is an error (R143, R153). -/
theorem frByte_state_cases :
    (frByte d b f).state = f.state ∨ (frByte d b f).state = .protocolError ∨
    (b = hdr ∧ f.state = .awaitHeader ∧ (frByte d b f).state = .reading) ∨
    (b = hdr ∧ f.state = .reading ∧ f.pend = false ∧ (frByte d b f).state = .complete) := by
  cases hs : f.state
  case awaitHeader =>
    rw [frByte_of_awaitHeader d b hs]
    split
    case isTrue hb => exact .inr (.inr (.inl ⟨hb, rfl, rfl⟩))
    case isFalse => exact .inr (.inl rfl)
  case reading =>
    cases hp : f.pend with
    | true =>
      rw [frByte_of_pend d hs hp, ← hs]
      exact (frUnstuff_state_cases b f).imp_right .inl
    | false =>
      by_cases hescb : b = escb
      · rw [hescb, frByte_escb_of_reading d hs hp]
        exact .inl hs
      · by_cases hhdr : b = hdr
        · rw [hhdr, frByte_hdr_of_reading d hs hp]
          rcases frFinalise_state_cases d f with e | e
          · exact .inr (.inr (.inr ⟨rfl, rfl, rfl, e⟩))
          · exact .inr (.inl e)
        · rw [frByte_verbatim_of_reading d hs hp hescb hhdr, ← hs]
          exact (frStore_state_cases b f).imp_right .inl
  all_goals
    rw [frByte_of_inactive d b (by rw [hs]; rfl)]
    exact .inl hs

end

/-- FR.START changes the state of a unit that is not active alone, to AWAIT_HEADER (R140, R141). -/
theorem frStart_state_cases (f : FrUnit) :
    (frStart f).state = f.state ∨ (f.state.active = false ∧ (frStart f).state = .awaitHeader) := by
  cases hs : f.state.active with
  | true => exact .inl (by rw [frStart_of_active hs])
  | false => exact .inr ⟨rfl, by rw [frStart_of_inactive hs, frFresh_state]⟩

/-- FR.TICK changes the state of an active unit past its deadline alone, to TIMED_OUT (R162). -/
theorem frTick_state_cases (f : FrUnit) :
    (frTick f).state = f.state ∨
    (f.state.active = true ∧ 200 ≤ f.timer.toNat ∧ (frTick f).state = .timedOut) := by
  cases hs : f.state.active with
  | false => exact .inl (by rw [frTick_of_inactive hs])
  | true =>
    rw [frTick_state_of_active hs]
    split
    case isTrue hover => exact .inr ⟨rfl, Nat.lt_succ_iff.1 hover, rfl⟩
    case isFalse => exact .inl rfl

/-- Everything that changes FR's state (R201, R202). -/
theorem exec_fr_state_change_cases {i : Instr} {s t : State} (h : exec i s = .next t) (hne : t.fr.state ≠ s.fr.state) :
    (i = .frStart ∧ s.fr.state.active = false ∧ t.fr.state = .awaitHeader) ∨
    (i = .frByte hdr ∧ s.fr.state = .awaitHeader ∧ t.fr.state = .reading) ∨
    (i = .frByte hdr ∧ s.fr.state = .reading ∧ s.fr.pend = false ∧ t.fr.state = .complete) ∨
    ((∃ b, i = .frByte b) ∧ t.fr.state = .protocolError) ∨
    (i = .frTick ∧ s.fr.state.active = true ∧ 200 ≤ s.fr.timer.toNat ∧ t.fr.state = .timedOut) := by
  rcases exec_fr_cases h with ⟨rfl, e⟩ | ⟨b, rfl, e⟩ | ⟨rfl, e⟩ | ⟨-, e⟩ <;> rw [e] at hne ⊢
  · exact .inl ⟨rfl, (frStart_state_cases s.fr).resolve_left hne⟩
  · rcases (frByte_state_cases s.draws b s.fr).resolve_left hne with herr | ⟨rfl, hrest⟩ | ⟨rfl, hrest⟩
    · exact .inr (.inr (.inr (.inl ⟨⟨b, rfl⟩, herr⟩)))
    · exact .inr (.inl ⟨rfl, hrest⟩)
    · exact .inr (.inr (.inl ⟨rfl, hrest⟩))
  · exact .inr (.inr (.inr (.inr ⟨rfl, (frTick_state_cases s.fr).resolve_left hne⟩)))
  · exact absurd rfl hne

/-- Settles O32: each kind of change has one target. The invariant bounds the timer of an attempt that runs out, and says
of the state after a completed frame that the frame is good. -/
theorem frOutcomesHaveTheirOnlyCauses : Obligations.FrOutcomesHaveTheirOnlyCauses := by
  intro i s t hinv h hne
  obtain ⟨-, ⟨-, -, -, -, hgood, -⟩, -⟩ := exec_inv hinv h
  rcases exec_fr_state_change_cases h hne with
    ⟨rfl, hs, e⟩ | ⟨rfl, hs, e⟩ | ⟨rfl, hs, hp, e⟩ | ⟨hbyte, e⟩ | ⟨rfl, hs, htimer, e⟩ <;> rw [e] at hgood ⊢
  · exact ⟨nofun, nofun, nofun, nofun, fun _ => ⟨rfl, hs⟩, nofun⟩
  · exact ⟨nofun, nofun, nofun, fun _ => ⟨rfl, hs⟩, nofun, nofun⟩
  · exact ⟨nofun, nofun, fun _ => ⟨rfl, hs, hp, hgood rfl⟩, nofun, nofun, nofun⟩
  · exact ⟨nofun, fun _ => hbyte, nofun, nofun, nofun, nofun⟩
  · exact ⟨fun _ => ⟨rfl, (fr_timer_le_of_active hinv hs).antisymm htimer⟩, nofun, nofun, nofun, nofun, nofun⟩

/-- Settles O33, by what each operation can do to FR. -/
theorem frTimerChangesOnlyByStartAndTick : Obligations.FrTimerChangesOnlyByStartAndTick := by
  intro i s t h
  rcases exec_fr_cases h with ⟨rfl, e⟩ | ⟨b, rfl, e⟩ | ⟨rfl, e⟩ | ⟨hu, e⟩ <;> rw [e]
  · cases hs : s.fr.state.active with
    | false => rw [if_pos ⟨rfl, rfl⟩, frStart_of_inactive hs, frFresh_timer]
    | true => rw [if_neg nofun, if_neg nofun, frStart_of_active hs]
  · rw [if_neg nofun, if_neg nofun, frByte_timer]
  · cases hs : s.fr.state.active with
    | false => rw [if_neg nofun, if_neg nofun, frTick_of_inactive hs]
    | true => rw [if_neg nofun, if_pos ⟨rfl, rfl⟩, frTick_timer_of_active hs]
  · rw [if_neg fun ⟨hi, _⟩ => hu (hi ▸ rfl), if_neg fun ⟨hi, _⟩ => hu (hi ▸ rfl)]

end Sys2Proof.Machine
end

section
/-! `ill_op` (spec/60_exceptions.md R206, R213): only a reset step clears it, and no operation reads it. -/

namespace Sys2Proof.Machine

section
variable {i : Instr} {s s' t t' : State}

/-- Whether an operation completes depends on WR alone. -/
theorem exec_next_congr (h : exec i s = .next t) (hwr : s.wr = s'.wr) : ∃ t', exec i s' = .next t' := by
  cases h' : exec i s' with
  | next t' => exact ⟨t', rfl⟩
  | fault r => cases (exec_fault_congr h' fun _ => hwr.symm).symm.trans h
  | refused r => exact absurd h' (exec_ne_refused i s' r)

/-- Two states with the same unit `u` have the same unit `u` after any operation, whatever unit it writes; the other units
do not matter. -/
theorem exec_keeps_sameUnit {u : UnitName} (h : exec i s = .next t) (h' : exec i s' = .next t') (hsys : u ≠ .sys)
    (hdraws : s.draws = s'.draws) (hs : s.SameUnit u s') : t.SameUnit u t' := by
  by_cases hu : i.unitOf = u
  · exact exec_sameUnit_congr h h' hu hdraws hs
  · exact ((exec_sameUnit h hu hsys).symm.trans hs).trans (exec_sameUnit h' hu hsys)

/-- An operation does the same to everything but SYS from any two states that differ in SYS alone. -/
theorem exec_withSys (h : exec i s = .next t) (y : SysUnit) :
    ∃ y', exec i { s with sys := y } = .next { t with sys := y' } := by
  obtain ⟨t', h'⟩ := exec_next_congr (s' := { s with sys := y }) h rfl
  have ht' : { t with sys := t'.sys } = t' := by
    refine State.eq_of_sameUnit (fun u => ?_) ((exec_inputs h).trans (exec_inputs h').symm)
      ((exec_draws h).trans (exec_draws h').symm)
    by_cases hsys : u = .sys
    · subst hsys
      rfl
    · have hs : s.SameUnit u { s with sys := y } := withUnit_sameUnit s { s with sys := y } (Ne.symm hsys)
      have ht : t.SameUnit u { t with sys := t'.sys } := withUnit_sameUnit t t' (Ne.symm hsys)
      exact ht.symm.trans (exec_keeps_sameUnit h h' hsys rfl hs)
  exact ⟨t'.sys, ht' ▸ h'⟩

/-- R213: a step clears `ill_op` if it is a reset, and keeps a one otherwise. -/
theorem step_illOp (h : step s = .next t) :
    if s.action = .reset then t.sys.illOp = false else (s.sys.illOp = true → t.sys.illOp = true) := by
  rcases step_cases h with ⟨ha, rfl⟩ | ⟨ha, rfl⟩ | ⟨i, u, ha, hu, rfl⟩
  · rw [if_pos ha]
    rfl
  · rw [if_neg (by rw [ha]; nofun)]
    exact id
  · rw [if_neg (by rw [ha]; nofun), endStep_sys, exec_illOp hu, takeInput_sys]
    exact Bool.or_eq_true_iff.2 ∘ .inl

end

/-- Settles O48, for an operation, for a step, and for the state beside `ill_op`. -/
theorem illOpIsStickyAndHarmless : Obligations.IllOpIsStickyAndHarmless :=
  ⟨fun _ _ _ => exec_illOp, fun _ _ => step_illOp, fun _ _ _ y h => exec_withSys h y⟩

end Sys2Proof.Machine
end

section
/-! The reset state (spec/70_reset_and_hazards.md R232): what its status bytes and its buffers read as. -/

namespace Sys2Proof.Machine

theorem memRead_frStat (s : State) : memRead s 0x10 = frStat s.fr := rfl
theorem memRead_wrStat (s : State) : memRead s 0x20 = wrStat s.wr := rfl

/-- FR_STAT is 0 in IDLE with cause NONE and nothing pending: the codes of both are 0 (R32, R33). -/
theorem frStat_of_idle {f : FrUnit} (hstate : f.state = .idle) (hcause : f.cause = .none) (hpend : f.pend = false) :
    frStat f = 0x00 := by
  apply BitVec.eq_of_toNat_eq
  rw [frStat_toNat, hstate, hcause, hpend]
  rfl

/-- WR_STAT is 0 in IDLE with the first byte of a group next (R30, R34). -/
theorem wrStat_of_idle {w : WrUnit} (hstate : w.state = .idle) (hphase : w.phase = .first) : wrStat w = 0x00 := by
  apply BitVec.eq_of_toNat_eq
  rw [wrStat_toNat, hstate, hphase]
  rfl

/-- Settles O12: the registers stand in the reset record, the status bytes read 0 in IDLE, and a buffer that lists
nothing has no entry. -/
theorem resetStateIsAsTheSpecSays : Obligations.ResetStateIsAsTheSpecSays := by
  have hchk : memRead State.reset 0x01 = 0xFF := (memRead_chkOut _).trans BitVec.not_zero
  have hfr : memRead State.reset 0x10 = 0x00 := (memRead_frStat _).trans (frStat_of_idle rfl rfl rfl)
  have hwr : memRead State.reset 0x20 = 0x00 := (memRead_wrStat _).trans (wrStat_of_idle rfl rfl)
  exact ⟨hchk, rfl, rfl, rfl, hfr, rfl, rfl, hwr, rfl, rfl, rfl, rfl, rfl, rfl, rfl,
    fun i => ⟨Memory.read_nil i, Memory.read_nil i⟩⟩

end Sys2Proof.Machine
end
